-- ==== Sys2Proof/Word.lean ====
section
/-! DEFINITION. The two widths of the machine: the byte of memory and of an encoded instruction, and the
16-bit pattern of a register slot (`spec/00_scope.md` rules R5, R6, R7). -/

namespace Sys2Proof

/-- A memory cell or an instruction byte: an integer 0 to 255, never read as signed (R6, R32). -/
abbrev Byte := BitVec 8

/-- A register slot or a memory word: a 16-bit pattern (R6, R7, R21). -/
abbrev Word := BitVec 16

/-- The signed reading `s16` of a 16-bit pattern (R7). -/
abbrev s16 (u : Word) : Int := u.toInt

/-- The pattern `u16` of an integer, reduced modulo 2^16 (R7). -/
abbrev u16 (i : Int) : Word := BitVec.ofInt 16 i

end Sys2Proof
end

