-- ==== Sys2Proof/Machine/Alu.lean ====
section
/-! DEFINITION. The ALU (`spec/42_arithmetic.md` rule R110): every operation of its table, and the byte
assembly and splitting the decoder and the memory unit make of them. No operation has a status output
(R115, R150). Only ADD16 and SUB16 are reachable as instructions; no opcode performs the others on register
values (R117). -/

namespace Sys2Proof.Machine

/-- ADD16: the sum modulo 2^16 (R110, R114). -/
def aluAdd (a b : Word) : Word := a + b

/-- SUB16: `a - b` modulo 2^16 (R110, R114). -/
def aluSub (a b : Word) : Word := a - b

/-- OR: bitwise (R110). -/
def aluOr (a b : Word) : Word := a ||| b

/-- SHL8: the word with the byte `b` in bits 15 to 8 (R110). -/
def aluShl8 (b : Byte) : Word := b.setWidth 16 <<< 8

/-- AND: bitwise, used with the masks 0x00FF and 0xFF00 (R110). -/
def aluAnd (a m : Word) : Word := a &&& m

/-- XOR: bitwise; the spec gives it to the equality comparator (R110, decision D21). -/
def aluXor (a b : Word) : Word := a ^^^ b

/-- EQ: whether the two patterns are identical, all 16 bits (R110, R118). The spec's unobservable note makes
it of XOR; `Sys2Proof.Laws.aluEq_iff` says that it is equality. -/
def aluEq (a b : Word) : Bool := aluXor a b == 0#16

/-- `zext_16` of a byte (R8). -/
def zext16 (b : Byte) : Word := b.setWidth 16

/-- `hi || lo = lo | (hi << 8)`: a word from its low and its high byte (R8, R43, R66). -/
def assemble (lo hi : Byte) : Word := aluOr (zext16 lo) (aluShl8 hi)

/-- `v[7:0] = v & 0x00FF` (R44, R110). -/
def lowByte (v : Word) : Byte := (aluAnd v 0x00FF#16).setWidth 8

/-- `v[15:8] = (v & 0xFF00) >> 8` (R44, R110). -/
def highByte (v : Word) : Byte := (aluAnd v 0xFF00#16 >>> 8).setWidth 8

end Sys2Proof.Machine
end

