-- ==== Sys2Proof/Config.lean ====
section
/-! DEFINITION. The parameters of `spec/00_scope.md` rule R5. All but `stepLimit` are fixed by the spec. -/

namespace Sys2Proof.Config

/-- `MEM_SIZE`: the number of bytes of memory; the addresses are 0 to 19 (R5, R40). -/
abbrev memSize : Nat := 20

/-- `RESET_IP`: the entry point (R5, R33). -/
abbrev resetIp : Word := 0#16

/-- `HALT_OPCODE`: the opcode byte the halt detector matches (R5, R141). -/
abbrev haltOpcode : Byte := 0xFF#8

/-- The bytes of the longest instruction, ADDI (R63). -/
abbrev maxLength : Nat := 4

/-- `OUTPUT_SLOT`, by convention only (R5, R41). -/
abbrev outputSlot : Nat := 0x0E

/-- `INPUT1_SLOT`, by convention only (R5, R41). -/
abbrev input1Slot : Nat := 0x10

/-- `INPUT2_SLOT`, by convention only (R5, R41). -/
abbrev input2Slot : Nat := 0x12

/-- `STEP_LIMIT`: the one open parameter (R5, R95, decision D14), at the spec's default `none`.
`Sys2Proof.Machine.stepWith` takes it as an argument; this is the value `Sys2Proof.Machine.step` passes.
DESIGN CHOICE, log entry 3, unsafe: a machine built with a cap stops where this one goes on. -/
abbrev stepLimit : Option Nat := none

end Sys2Proof.Config
end

