-- ==== Sys2Proof/Machine/State.lean ====
section
/-! DEFINITION. The whole state of the machine (`spec/10_state.md` rule R20) as plain data, what a step can answer
besides a next state, and the state after reset. -/

namespace Sys2Proof.Machine

/-- Where the loop's state machine stands (R30). No instruction reads it. -/
inductive RunState where
  /-- Steps are taken. -/
  | running
  /-- The opcode 0xFF was fetched (R140). -/
  | halted
  /-- `ip >= 20` at the top of a Step (R82): a normal end, not an error. -/
  | exhausted
  /-- A fault was raised (R176). -/
  | faulted
  /-- The cap of R95 was reached: an outcome only of a machine built with a number for `STEP_LIMIT`, and none of
  the document's. DESIGN CHOICE, log entry 4: the outcome is held as a fifth value of the run state. -/
  | stepLimitReached
deriving DecidableEq, Repr

/-- The kind field of the fault record (R31, R170). -/
inductive FaultKind where
  | none | illegalInstruction | outOfBounds
deriving DecidableEq, Repr

/-- The operation field of the fault record (R31, R172). -/
inductive FaultOp where
  | none | opcodeFetch | operandFetch | read16 | write16 | jumpTarget
deriving DecidableEq, Repr

/-- The fault record (R31): what a fault reports to the host. -/
structure FaultRecord where
  /-- The fault kind. -/
  kind : FaultKind
  /-- The offending address, a signed 16-bit value. -/
  addr : Word
  /-- The opcode byte of the faulting instruction; 0 for an opcode fetch from a negative `ip`. -/
  opcode : Byte
  /-- The operation that was out of bounds. -/
  op : FaultOp
deriving DecidableEq, Repr

/-- The record `(None, 0, 0, None)` that reset leaves (R33). -/
def FaultRecord.cleared : FaultRecord := { kind := .none, addr := 0#16, opcode := 0#8, op := .none }

/-- The memory `M` of 20 bytes (R32) as the list of its cells, addresses strictly rising, that do not read as
`Memory.unlisted` (`Memory.wf`). -/
abbrev Memory := List Host.Cell

/-- What an address that the memory does not list reads as. The spec gives no fixed content: every byte of `M`
after reset is the host's image (R33, R200). DESIGN CHOICE, log entry 2, unsafe: 0. -/
abbrev Memory.unlisted : Byte := 0#8

/-- Every address listed is at least `lo` and in memory, addresses rise, and no listed byte is `unlisted`. -/
def Memory.wfFrom (lo : Nat) : Memory → Bool
  | [] => true
  | (a, b) :: m => decide (lo ≤ a) && decide (a < Config.memSize) && decide (b ≠ Memory.unlisted) && wfFrom (a + 1) m

/-- The canonical form of a memory. -/
def Memory.wf (m : Memory) : Bool := Memory.wfFrom 0 m

/-- The state of the machine (R20): the three slots of the register file (R21), the memory (R32), the run state
(R30), the fault record (R31), and the counter of R95. There is no other state and no configuration state
(R36, R37). -/
structure State where
  /-- `x[0]`, the program counter (R24). -/
  ip : Word
  /-- `x[1]` (R21). -/
  r1 : Word
  /-- `x[2]` (R21). -/
  r2 : Word
  /-- `M` (R32). -/
  mem : Memory
  /-- `run_state` (R30). -/
  runState : RunState
  /-- `fault` (R31). -/
  fault : FaultRecord
  /-- `steps`, the opcode fetches counted by a machine built with a number for `STEP_LIMIT` (R95); one built with
  `none` never changes it (log entry 5). -/
  steps : Nat
deriving DecidableEq, Repr

/-- What stops a step of the MODEL with a fault: nothing, so the type has no constructor (log entry 7, DEDUCED,
safe). The faults of the SPEC (R170: IllegalInstruction, OutOfBounds) do not stop the model: their entry is
described (R176), so the step that raises one answers the next state with `runState = faulted` and the record
filled. -/
inductive Fault where
deriving DecidableEq, Repr

/-- What the model refuses. -/
inductive Refusal where
  /-- Raised by an arm of `exec` whose instruction has no meaning yet; safe (the model stops where the hardware goes
  on). Every instruction has its meaning, so no arm raises it. -/
  | notModelled (mnemonic : String)
deriving DecidableEq, Repr

/-- The machine right after reset (R33, R200): registers zero, `ip` at the entry point, Running, the record
cleared, the counter zero. The image is the host's to give (R152); this is the reset with the image of 20 zero
bytes (log entry 2). `resetWith` is the reset with any image. -/
def State.reset : State :=
  { ip := Config.resetIp
    r1 := 0#16
    r2 := 0#16
    mem := []
    runState := .running
    fault := FaultRecord.cleared
    steps := 0 }

end Sys2Proof.Machine
end

