-- ==== Sys2Proof/Machine/Memory.lean ====
section
/-! DEFINITION. The memory read/write unit (`spec/20_memory.md`, `spec/45_blocks_and_interfaces.md` rule R146):
bounds-checked byte read, word read and word write over the canonical list of cells, little-endian, with no
alignment rule. An address is a natural number, so "0 <= a" holds by its type. -/

namespace Sys2Proof.Machine

/-- The byte stored at an address, bounds not checked: the cell's byte, or `unlisted`. -/
def Memory.peek : Memory → Nat → Byte
  | [], _ => Memory.unlisted
  | (k, v) :: m, a => if k = a then v else peek m a

/-- Store a byte at an address, bounds not checked, keeping the canonical form: storing `unlisted` removes the
cell. -/
def Memory.poke : Memory → Nat → Byte → Memory
  | [], a, b => if b = Memory.unlisted then [] else [(a, b)]
  | (k, v) :: m, a, b =>
    if a < k then
      if b = Memory.unlisted then (k, v) :: m else (a, b) :: (k, v) :: m
    else if a = k then
      if b = Memory.unlisted then m else (a, b) :: m
    else (k, v) :: poke m a b

/-- `MemRead(a, 1)`, the document's `readByte` (R42); `none` is OutOfBounds. -/
def Memory.readByte (m : Memory) (a : Nat) : Option Byte :=
  if a < Config.memSize then some (m.peek a) else none

/-- `MemRead(a, 2)`, the document's `read16` (R43): low byte at `a`, high byte at `a + 1`. It is in bounds exactly
when both bytes are (R54); `none` is OutOfBounds. -/
def Memory.readWord (m : Memory) (a : Nat) : Option Word :=
  if a + 1 < Config.memSize then some (assemble (m.peek a) (m.peek (a + 1))) else none

/-- `MemWrite(a, 2, v)`, the document's `write16` (R44): low byte to `a`, high byte to `a + 1`. Both bounds are
checked before either byte is written (decision D25); `none` is OutOfBounds, nothing written. -/
def Memory.writeWord (m : Memory) (a : Nat) (v : Word) : Option Memory :=
  if a + 1 < Config.memSize then some ((m.poke a (lowByte v)).poke (a + 1) (highByte v)) else none

/-- The bytes at `a`, `a + 1`, …, at most `n` of them, ending where memory ends: what successive byte reads of
R42 answer before the first that is out of bounds. -/
def Memory.window (m : Memory) (a : Nat) : Nat → List Byte
  | 0 => []
  | n + 1 =>
    match m.readByte a with
    | some b => b :: window m (a + 1) n
    | none => []

/-- The memory whose cells from address `a` on hold these bytes, in canonical form. -/
def Memory.ofBytes (a : Nat) : List Byte → Memory
  | [] => []
  | b :: bs => if b = Memory.unlisted then ofBytes (a + 1) bs else (a, b) :: ofBytes (a + 1) bs

/-- Store bytes at `a`, `a + 1`, …, each bounds-checked; a byte beyond the end is dropped. Only the host's
placing of bytes uses it: no instruction writes anything but a word (R45). -/
def Memory.placeBytes (m : Memory) (a : Nat) : List Byte → Memory
  | [] => m
  | b :: bs => placeBytes (if a < Config.memSize then m.poke a b else m) (a + 1) bs

end Sys2Proof.Machine
end

