-- ==== Sys2Proof/Syntax.lean ====
section
/-! DEFINITION. The instructions as data: the three register names, the eight opcodes with the formats of
`spec/30_encoding.md` rule R61, and `Instr`, one constructor per row of `spec/opcode_table.json`. -/

namespace Sys2Proof

/-- The three register slots, and no fourth (R21). A register code 3 to 255 names none of them (R64), so
an ill-formed register operand is no term of this type: the decoder refuses the byte. -/
inductive Reg where
  /-- Code 0: the instruction pointer (R24). -/
  | ip
  /-- Code 1. -/
  | r1
  /-- Code 2. -/
  | r2
deriving DecidableEq, Repr

/-- The eight defined opcodes (R62). -/
inductive Opcode where
  | loadWord | storeWord | add | sub | jmp | je | addi | halt
deriving DecidableEq, Repr

/-- The five formats (R61): the roles of the operand bytes, in address order. -/
inductive Format where
  /-- no operand -/
  | n
  /-- `addr` -/
  | a
  /-- `reg`, `addr` -/
  | ra
  /-- `regA`, `regB` -/
  | rr
  /-- `reg`, `immLow`, `immHigh` -/
  | ri
deriving DecidableEq, Repr

/-- The instructions (R61, R62): one constructor per row of the opcode table. An address operand is its byte
(R65), the immediate of ADDI is the assembled 16-bit pattern (R66). -/
inductive Instr where
  /-- LOAD_WORD reg, [addr] (R100). -/
  | loadWord (reg : Reg) (addr : Byte)
  /-- STORE_WORD reg, [addr] (R101). -/
  | storeWord (reg : Reg) (addr : Byte)
  /-- ADD regA, regB; the destination is `r1`, not encoded (R111, R116). -/
  | add (regA regB : Reg)
  /-- SUB regA, regB; the destination is `r1`, not encoded (R112, R116). -/
  | sub (regA regB : Reg)
  /-- JMP addr (R125). -/
  | jmp (addr : Byte)
  /-- JE addr; the compared registers are `r1` and `r2`, not encoded (R126). -/
  | je (addr : Byte)
  /-- ADDI reg, imm (R113). -/
  | addi (reg : Reg) (imm : Word)
  /-- HALT (R140). -/
  | halt
deriving DecidableEq, Repr

/-- The opcode of an instruction. -/
def Instr.opcode : Instr → Opcode
  | .loadWord _ _ => .loadWord
  | .storeWord _ _ => .storeWord
  | .add _ _ => .add
  | .sub _ _ => .sub
  | .jmp _ => .jmp
  | .je _ => .je
  | .addi _ _ => .addi
  | .halt => .halt

/-- The mnemonic the spec writes for an opcode (R62, R70). -/
def Opcode.mnemonic : Opcode → String
  | .loadWord => "LOAD_WORD"
  | .storeWord => "STORE_WORD"
  | .add => "ADD"
  | .sub => "SUB"
  | .jmp => "JMP"
  | .je => "JE"
  | .addi => "ADDI"
  | .halt => "HALT"

/-- The format of an opcode (R62). -/
def Opcode.format : Opcode → Format
  | .loadWord => .ra
  | .storeWord => .ra
  | .add => .rr
  | .sub => .rr
  | .jmp => .a
  | .je => .a
  | .addi => .ri
  | .halt => .n

end Sys2Proof
end

