-- ==== Sys2Proof/Decode.lean ====
section
/-! DEFINITION. The instruction dispatcher's decoding (`spec/30_encoding.md`, `spec/45_blocks_and_interfaces.md`
rule R149): total on any list of bytes, rejecting by name; and the encoder, written from the same tables. -/

namespace Sys2Proof

open Sys2Proof.Machine (assemble lowByte highByte)

/-- The opcode byte of an opcode (R62). -/
def Opcode.byte : Opcode → Byte
  | .loadWord => 0x01#8
  | .storeWord => 0x02#8
  | .add => 0x03#8
  | .sub => 0x04#8
  | .jmp => 0x05#8
  | .je => 0x06#8
  | .addi => 0x07#8
  | .halt => Config.haltOpcode

/-- The opcode a byte stands for: the whole byte is compared (R62); the 248 other values are illegal (R67). -/
def Opcode.ofByte (b : Byte) : Option Opcode :=
  if b = 0x01#8 then some .loadWord
  else if b = 0x02#8 then some .storeWord
  else if b = 0x03#8 then some .add
  else if b = 0x04#8 then some .sub
  else if b = 0x05#8 then some .jmp
  else if b = 0x06#8 then some .je
  else if b = 0x07#8 then some .addi
  else if b = Config.haltOpcode then some .halt
  else none

/-- The length of a format in bytes, opcode byte included (R61). -/
def Format.length : Format → Nat
  | .n => 1
  | .a => 2
  | .ra => 3
  | .rr => 3
  | .ri => 4

/-- The length `L` of an instruction, fixed by its opcode alone (R63). -/
def Opcode.length (o : Opcode) : Nat := o.format.length

/-- The code of a register (R21, R64). -/
def Reg.code : Reg → Byte
  | .ip => 0#8
  | .r1 => 1#8
  | .r2 => 2#8

/-- The register a code names: the whole byte is the code, and 3 to 255 name none (R64). -/
def Reg.ofCode (b : Byte) : Option Reg :=
  if b = 0#8 then some .ip
  else if b = 1#8 then some .r1
  else if b = 2#8 then some .r2
  else none

/-- Why bytes are no instruction (R74). The loop turns each into the fault its rule names. -/
inductive DecodeError where
  /-- There is not even an opcode byte. -/
  | noOpcode
  /-- The opcode byte is none of the eight (R67, R86). -/
  | illegalOpcode (opc : Byte)
  /-- Operand byte `k` (1, 2 or 3) of this opcode is the first that is missing (R87). -/
  | missingOperand (opc : Byte) (k : Nat)
  /-- A register byte of this opcode is 3 to 255 (R64, R88). -/
  | badRegister (opc : Byte)
deriving DecidableEq, Repr

/-- What decoding answers: an instruction and the bytes after it, or a named refusal. -/
abbrev Decoded := Except DecodeError (Instr × List Byte)

/-- The refusal when only these operand bytes are left: the next one is the first missing (R87). -/
def missingAfter (o : Opcode) (present : List Byte) : Decoded :=
  .error (.missingOperand o.byte (present.length + 1))

/-- Format `A`: `addr` (R61, R65). -/
def decodeA (o : Opcode) (mk : Byte → Instr) : List Byte → Decoded
  | addr :: rest => .ok (mk addr, rest)
  | [] => missingAfter o []

/-- Format `RA`: `reg`, `addr` (R61, R64, R65). All operand bytes are fetched before the register byte is
checked (R80 steps (f) and (g)). -/
def decodeRA (o : Opcode) (mk : Reg → Byte → Instr) : List Byte → Decoded
  | reg :: addr :: rest =>
    match Reg.ofCode reg with
    | some r => .ok (mk r addr, rest)
    | none => .error (.badRegister o.byte)
  | [x] => missingAfter o [x]
  | [] => missingAfter o []

/-- Format `RR`: `regA`, `regB`, both checked (R61, R64, R88). -/
def decodeRR (o : Opcode) (mk : Reg → Reg → Instr) : List Byte → Decoded
  | regA :: regB :: rest =>
    match Reg.ofCode regA, Reg.ofCode regB with
    | some a, some b => .ok (mk a b, rest)
    | some _, none => .error (.badRegister o.byte)
    | none, _ => .error (.badRegister o.byte)
  | [x] => missingAfter o [x]
  | [] => missingAfter o []

/-- Format `RI`: `reg`, `immLow`, `immHigh`, the immediate low byte first (R61, R64, R66). -/
def decodeRI (o : Opcode) (mk : Reg → Word → Instr) : List Byte → Decoded
  | reg :: immLow :: immHigh :: rest =>
    match Reg.ofCode reg with
    | some r => .ok (mk r (assemble immLow immHigh), rest)
    | none => .error (.badRegister o.byte)
  | [x, y] => missingAfter o [x, y]
  | [x] => missingAfter o [x]
  | [] => missingAfter o []

/-- The operands of an opcode, read from the bytes after it (R61). -/
def decodeOperands (o : Opcode) (bs : List Byte) : Decoded :=
  match o with
  | .loadWord => decodeRA .loadWord .loadWord bs
  | .storeWord => decodeRA .storeWord .storeWord bs
  | .add => decodeRR .add .add bs
  | .sub => decodeRR .sub .sub bs
  | .jmp => decodeA .jmp .jmp bs
  | .je => decodeA .je .je bs
  | .addi => decodeRI .addi .addi bs
  | .halt => .ok (.halt, bs)

/-- The decoder (R149): the instruction at the head of the bytes. The order of its refusals is that of R80
steps (c) to (g). -/
def decode : List Byte → Decoded
  | [] => .error .noOpcode
  | opc :: bs =>
    match Opcode.ofByte opc with
    | none => .error (.illegalOpcode opc)
    | some o => decodeOperands o bs

/-- The encoder (R61, R62, R66): the bytes of an instruction, in increasing address order. -/
def encode : Instr → List Byte
  | .loadWord reg addr => [Opcode.byte .loadWord, reg.code, addr]
  | .storeWord reg addr => [Opcode.byte .storeWord, reg.code, addr]
  | .add regA regB => [Opcode.byte .add, regA.code, regB.code]
  | .sub regA regB => [Opcode.byte .sub, regA.code, regB.code]
  | .jmp addr => [Opcode.byte .jmp, addr]
  | .je addr => [Opcode.byte .je, addr]
  | .addi reg imm => [Opcode.byte .addi, reg.code, lowByte imm, highByte imm]
  | .halt => [Opcode.byte .halt]

/-- The four bytes of a table word: bit 0 is the least significant bit of byte 0, the next byte is bits 15 to 8,
and every bit at or above `nbits` is 0. -/
def tableBytes (nbits w : Nat) : List Byte :=
  let v := w % 2 ^ nbits
  [BitVec.ofNat 8 v, BitVec.ofNat 8 (v / 2 ^ 8), BitVec.ofNat 8 (v / 2 ^ 16), BitVec.ofNat 8 (v / 2 ^ 24)]

/-- The instruction the decoder reads from a word of the opcode table (host's interface). -/
def decodeTableWord (nbits w : Nat) : Option Instr :=
  match decode (tableBytes nbits w) with
  | .ok (i, _) => some i
  | .error _ => none

end Sys2Proof
end

