-- ==== Sys2Proof/Machine/Operands.lean ====
section
/-! DEFINITION. The operand forms (`spec/30_encoding.md` rules R64 to R66, `spec/41_load_store.md` rule R102): a
register slot read or written, and the one addressing mode, absolute. The immediate of ADDI needs no form of its
own: the decoder assembles it. -/

namespace Sys2Proof.Machine

/-- `get(reg)`, the register file's read (R22, R147). A read of `ip` while an instruction executes is the address of
its opcode byte (R93, decision D3). -/
def getReg (r : Reg) (s : State) : Word :=
  match r with
  | .ip => s.ip
  | .r1 => s.r1
  | .r2 => s.r2

/-- `set(reg, value)`, the register file's write: the whole slot (R22, R147). -/
def setReg (r : Reg) (v : Word) (s : State) : State :=
  match r with
  | .ip => { s with ip := v }
  | .r1 => { s with r1 := v }
  | .r2 => { s with r2 := v }

/-- The effective address of an address operand: the byte itself, zero-extended (R65, R102). -/
def effectiveAddress (addr : Byte) : Word := zext16 addr

end Sys2Proof.Machine
end

