-- ==== Sys2Proof/Machine/Ops.lean ====
section
/-! DEFINITION. The operations the meanings and the loop share: taking a fault, the two ways `ip` moves, and the ends
of a Run that are no fault. -/

namespace Sys2Proof.Machine

/-- What a step of this machine answers. -/
abbrev StepResult := Host.Outcome State Fault Refusal

/-- TAKING A FAULT (R176): the run state becomes Faulted and the record is filled, and nothing else changes: control
goes nowhere, nothing is saved. There is no return from a fault (R178). -/
def raise (record : FaultRecord) (s : State) : State :=
  { s with runState := .faulted, fault := record }

/-- The record of IllegalInstruction at the opcode address `p` (R171). -/
def illegalRecord (p : Word) (opc : Byte) : FaultRecord :=
  { kind := .illegalInstruction, addr := p, opcode := opc, op := .none }

/-- The record of OutOfBounds (R172). -/
def outOfBoundsRecord (addr : Word) (opc : Byte) (op : FaultOp) : FaultRecord :=
  { kind := .outOfBounds, addr := addr, opcode := opc, op := op }

/-- The advance of a non-transferring instruction (R90): `x[0] <- u16(x[0] + L)`, on whatever the effect left in
`x[0]` (R92, decision D2). -/
def advance (o : Opcode) (s : State) : State :=
  { s with ip := aluAdd s.ip (BitVec.ofNat 16 o.length) }

/-- The target check of a control transfer (R127, R128): the zero-extended operand byte, if memory has that
address. -/
def resolveTarget (addr : Byte) : Option Word :=
  if (effectiveAddress addr).toNat < Config.memSize then some (effectiveAddress addr) else none

/-- A control transfer (R91, R127, R128, R151): `ip` is the target exactly and nothing is added; a target outside memory
raises OutOfBounds instead. -/
def transfer (o : Opcode) (addr : Byte) (s : State) : State :=
  match resolveTarget addr with
  | some t => { s with ip := t }
  | none => raise (outOfBoundsRecord (effectiveAddress addr) o.byte .jumpTarget) s

/-- The halt detector's effect (R140): Halted, and nothing else changes. -/
def halt (s : State) : State := { s with runState := .halted }

/-- Exhaustion (R82, R173): the Run ends, it is no fault, and nothing else changes. -/
def exhaust (s : State) : State := { s with runState := .exhausted }

/-- The end of a Run at the cap (R95): nothing else changes. -/
def reachStepLimit (s : State) : State := { s with runState := .stepLimitReached }

end Sys2Proof.Machine
end

