-- ==== Sys2Proof/Machine/Arithmetic.lean ====
section
/-! DEFINITION. ADD, SUB and ADDI (`spec/42_arithmetic.md`). None raises a fault of its own and none records a flag
(R115). -/

namespace Sys2Proof.Machine

/-- ADD regA, regB (R111): both sources are read, then the sum goes to `r1` whatever registers are named (R116). -/
def execAdd (regA regB : Reg) (s : State) : StepResult :=
  .next (advance .add (setReg .r1 (aluAdd (getReg regA s) (getReg regB s)) s))

/-- SUB regA, regB (R112): `regA - regB` (R119) to `r1` whatever registers are named (R116). -/
def execSub (regA regB : Reg) (s : State) : StepResult :=
  .next (advance .sub (setReg .r1 (aluSub (getReg regA s) (getReg regB s)) s))

/-- ADDI reg, imm (R113): the immediate is added to the named register in place. -/
def execAddi (reg : Reg) (imm : Word) (s : State) : StepResult :=
  .next (advance .addi (setReg reg (aluAdd (getReg reg s) imm) s))

end Sys2Proof.Machine
end

