-- ==== Sys2Proof/Machine/Flags.lean ====
section
/-! DEFINITION. The machine has no flags, condition codes or predicates (`spec/10_state.md` rule R35): no arithmetic
instruction records anything (R115). Its one condition is the comparison JE makes when it executes. -/

namespace Sys2Proof.Machine

/-- The condition of JE: `r1 == r2` on all 16 bits, read from the registers (R118, R126). -/
def equalCondition (s : State) : Bool := aluEq s.r1 s.r2

end Sys2Proof.Machine
end

