-- ==== Sys2Proof/Machine/ControlTransfer.lean ====
section
/-! DEFINITION. JMP and JE (`spec/43_control_transfer.md`). -/

namespace Sys2Proof.Machine

/-- JMP addr (R125). -/
def execJmp (addr : Byte) (s : State) : StepResult := .next (transfer .jmp addr s)

/-- JE addr (R126): a transfer if `r1 == r2`; otherwise the advance past the operand byte, and the target is neither
used nor checked (R128, decision D7). -/
def execJe (addr : Byte) (s : State) : StepResult :=
  if equalCondition s then .next (transfer .je addr s) else .next (advance .je s)

end Sys2Proof.Machine
end

