-- ==== Sys2Proof/Machine/Halt.lean ====
section
/-! DEFINITION. HALT, the only system instruction (`spec/44_halt.md`). -/

namespace Sys2Proof.Machine

/-- HALT (R140): the run state becomes Halted; `ip` stays at the HALT byte (decision D23). -/
def execHalt (s : State) : StepResult := .next (halt s)

end Sys2Proof.Machine
end

