-- ==== Sys2Proof/Machine/LoadStore.lean ====
section
/-! DEFINITION. LOAD_WORD and STORE_WORD (`spec/41_load_store.md`). -/

namespace Sys2Proof.Machine

/-- LOAD_WORD reg, [addr] (R100): the word at the address to the register, then the advance; an address above 18
raises OutOfBounds(Read16) before any write. -/
def execLoadWord (reg : Reg) (addr : Byte) (s : State) : StepResult :=
  match s.mem.readWord (effectiveAddress addr).toNat with
  | some w => .next (advance .loadWord (setReg reg w s))
  | none => .next (raise (outOfBoundsRecord (effectiveAddress addr) (Opcode.byte .loadWord) .read16) s)

/-- STORE_WORD reg, [addr] (R101): the register to the two bytes at the address, then the advance; an address above
18 raises OutOfBounds(Write16) and neither byte is written. -/
def execStoreWord (reg : Reg) (addr : Byte) (s : State) : StepResult :=
  match s.mem.writeWord (effectiveAddress addr).toNat (getReg reg s) with
  | some m => .next (advance .storeWord { s with mem := m })
  | none => .next (raise (outOfBoundsRecord (effectiveAddress addr) (Opcode.byte .storeWord) .write16) s)

end Sys2Proof.Machine
end

