-- ==== Sys2Proof/Machine/Dispatch.lean ====
section
/-! DEFINITION. The dispatch of a decoded instruction to its meaning (`spec/40_execution_loop.md` rule R89). -/

namespace Sys2Proof.Machine

def exec (i : Instr) (s : State) : Host.Outcome State Fault Refusal :=
  match i with
  | .loadWord reg addr => Sys2Proof.Machine.execLoadWord reg addr s
  | .storeWord reg addr => Sys2Proof.Machine.execStoreWord reg addr s
  | .add regA regB => Sys2Proof.Machine.execAdd regA regB s
  | .sub regA regB => Sys2Proof.Machine.execSub regA regB s
  | .jmp addr => Sys2Proof.Machine.execJmp addr s
  | .je addr => Sys2Proof.Machine.execJe addr s
  | .addi reg imm => Sys2Proof.Machine.execAddi reg imm s
  | .halt => Sys2Proof.Machine.execHalt s

end Sys2Proof.Machine
end

