-- ==== Sys2Proof/Machine/Loop.lean ====
section
/-! DEFINITION. The fetch-decode-execute loop (`spec/40_execution_loop.md` rule R80), with the open parameter
`STEP_LIMIT` (R95) as an argument, and the host's placing of one instruction where the loop fetches next. -/

namespace Sys2Proof.Machine

/-- The run state is terminal: Halted, Exhausted, Faulted, or the cap of R95 (R30, R81). -/
def RunState.isTerminal : RunState → Bool
  | .running => false
  | .halted => true
  | .exhausted => true
  | .faulted => true
  | .stepLimitReached => true

/-- The fault record of bytes at `p` that are no instruction: R86 and R88 report the opcode's address `p`, R87 the
first address beyond memory. `noOpcode` is a byte read at `p` itself out of bounds (R42), which the loop's
tests (a) and (b) exclude (R84). -/
def decodeFault (p : Nat) : DecodeError → FaultRecord
  | .noOpcode => outOfBoundsRecord (BitVec.ofNat 16 p) 0#8 .opcodeFetch
  | .illegalOpcode opc => illegalRecord (BitVec.ofNat 16 p) opc
  | .missingOperand opc k => outOfBoundsRecord (BitVec.ofNat 16 (p + k)) opc .operandFetch
  | .badRegister opc => illegalRecord (BitVec.ofNat 16 p) opc

/-- The opcode and operand fetch and the decoding at address `p` (R80 steps (c) to (g)): the bytes are read from
memory as it is now (R53), all of them before any effect (R87). Reading up to the longest length and decoding what
was read gives the outcomes of R80's byte-by-byte fetch, since a read has no side effect (R48; log entry 9). -/
def fetchDecode (m : Memory) (p : Nat) : Decoded := decode (m.window p Config.maxLength)

/-- Steps (c) to (h) of R80 at address `p`: fetch, decode, execute, or take the fault. -/
def runAt (p : Nat) (s : State) : StepResult :=
  match fetchDecode s.mem p with
  | .ok (i, _) => exec i s
  | .error e => .next (raise (decodeFault p e) s)

/-- Whether the cap forbids a further opcode fetch (R95): "a Step that would fetch with `steps = n`". -/
def atStepLimit (limit : Option Nat) (s : State) : Bool :=
  match limit with
  | none => false
  | some n => decide (s.steps = n)

/-- Count an opcode fetch, in a machine built with a cap; without one there is no counter (R95). -/
def countFetch (limit : Option Nat) (s : State) : State :=
  match limit with
  | none => s
  | some _ => { s with steps := s.steps + 1 }

/-- One Step from a state with `run_state = Running` (R80): (a) Exhaustion for `ip >= 20`, (b) OutOfBounds for
`ip < 0`, both on the signed value of `ip`; then the cap of R95; then fetch, decode and execute. -/
def runningStep (limit : Option Nat) (s : State) : StepResult :=
  if (Config.memSize : Int) ≤ s16 s.ip then .next (exhaust s)
  else if s16 s.ip < 0 then .next (raise (outOfBoundsRecord s.ip 0#8 .opcodeFetch) s)
  else if atStepLimit limit s then .next (reachStepLimit s)
  else runAt s.ip.toNat (countFetch limit s)

/-- One Step of a machine built with this `STEP_LIMIT`. From a terminal state nothing changes: R81 defines no Step
there and allows the identity (DESIGN CHOICE, log entry 1, safe). -/
def stepWith (limit : Option Nat) (s : State) : StepResult :=
  if s.runState.isTerminal then .next s else runningStep limit s

/-- `n` Steps (R94), stopping where a Step answers no next state. -/
def runWith (limit : Option Nat) : Nat → State → StepResult
  | 0, s => .next s
  | n + 1, s =>
    match stepWith limit s with
    | .next t => runWith limit n t
    | .fault r => .fault r
    | .refused r => .refused r

/-- Where the host places an instruction: at `ip`, if the longest instruction fits there, else at the entry
point. -/
def placeAddress (s : State) : Nat :=
  if s.ip.toNat + Config.maxLength ≤ Config.memSize then s.ip.toNat else Config.resetIp.toNat

/-- The state with these bytes where the loop fetches next. Only the memory changes when the state is Running and
`ip` leaves room for the longest instruction; otherwise `ip` and the run state change to what the fetch needs.
No instruction does this: it stands for the host's loading of an image (log entry 2). -/
def placeInstruction (bytes : List Byte) (s : State) : State :=
  { s with
    ip := BitVec.ofNat 16 (placeAddress s)
    mem := s.mem.placeBytes (placeAddress s) bytes
    runState := .running }

end Sys2Proof.Machine
end

