-- ==== Sys2Proof/Machine/Step.lean ====
section
/-! DEFINITION. The step of the machine, at the default `STEP_LIMIT = none` of `spec/00_scope.md` rule R5, and the
host's placing of one instruction. -/

namespace Sys2Proof.Machine

/-- One Step (R80). -/
def step (s : State) : Host.Outcome State Fault Refusal := stepWith Config.stepLimit s

/-- `s` with the instruction of a table word stored where `step` fetches next. -/
def State.withFetchWord (s : State) (nbits w : Nat) : State := placeInstruction (tableBytes nbits w) s

end Sys2Proof.Machine
end

