-- ==== Sys2Proof/Machine/Boundary.lean ====
section
/-! DEFINITION. The boundary to the harness (`spec/45_blocks_and_interfaces.md` rules R152 to R156,
`spec/70_reset_and_hazards.md` rules R200 to R202): the image and the reset event inward, the snapshot outward, the
conventional regions, and the numeric codes of the outward fields. No Step uses any of it. -/

namespace Sys2Proof.Machine

/-- A program image: exactly 20 bytes (R152, R201, decision D26). -/
abbrev Image := Vector Byte Config.memSize

/-- The memory of an image: `M[a] = image[a]` (R33, R200). -/
def Memory.ofImage (image : Image) : Memory := Memory.ofBytes 0 image.toList

/-- The reset event (R200), in any run state: every item of the state is set and nothing of the Run survives (R34). -/
def resetWith (image : Image) (_s : State) : State :=
  { ip := Config.resetIp
    r1 := 0#16
    r2 := 0#16
    mem := Memory.ofImage image
    runState := .running
    fault := FaultRecord.cleared
    steps := 0 }

/-- The image of 20 zero bytes, with which `State.reset` is a reset (log entry 2). -/
def zeroImage : Image := Vector.replicate Config.memSize 0#8

/-- The bytes of memory as the host reads them (R152 `mem`). -/
def Memory.image (m : Memory) : Image := Vector.ofFn fun i => m.peek i.val

/-- What the host reads at the end of a Run (R152, R155): `run_state`, `fault`, `regs`, `mem`. The grouping is decision D19. -/
structure Snapshot where
  runState : RunState
  fault : FaultRecord
  ip : Word
  r1 : Word
  r2 : Word
  mem : Image
deriving DecidableEq, Repr

/-- The host may read only when the run state is terminal (R155; StepLimitReached among them is log entry 4); while Running it
has no access (R156). -/
def snapshot (s : State) : Option Snapshot :=
  if s.runState.isTerminal then
    some { runState := s.runState, fault := s.fault, ip := s.ip, r1 := s.r1, r2 := s.r2, mem := s.mem.image }
  else none

/-- The Output slot as the host decodes it, `s16(M[0x0E] | (M[0x0F] << 8))` (R154). -/
def outputValue (m : Memory) : Int :=
  s16 (assemble (m.peek Config.outputSlot) (m.peek (Config.outputSlot + 1)))

/-- An image with the two inputs where the host pre-populates them, little-endian (R153). -/
def withInputs (image : Image) (input1 input2 : Word) : Image :=
  (((image.set 0x10 (lowByte input1)).set 0x11 (highByte input1)).set 0x12 (lowByte input2)).set 0x13 (highByte input2)

/-- The four regions of R41, an agreement between the program and the host that nothing enforces. -/
inductive Region where
  | program | output | input1 | input2
deriving DecidableEq, Repr

/-- The region an address lies in (R41); none beyond address 19, where nothing is (R49). -/
def Region.ofAddress (a : Nat) : Option Region :=
  if a < Config.outputSlot then some .program
  else if a < Config.input1Slot then some .output
  else if a < Config.input2Slot then some .input1
  else if a < Config.memSize then some .input2
  else none

/-- The 2-bit code of the run state at the boundary (R30, R152). `StepLimitReached` has no code in the spec. -/
def RunState.code : RunState → Option (BitVec 2)
  | .running => some 0#2
  | .halted => some 1#2
  | .exhausted => some 2#2
  | .faulted => some 3#2
  | .stepLimitReached => none

/-- The 2-bit code of the fault kind (R31, R170). -/
def FaultKind.code : FaultKind → BitVec 2
  | .none => 0#2
  | .illegalInstruction => 1#2
  | .outOfBounds => 2#2

/-- The 3-bit code of the operation (R31). -/
def FaultOp.code : FaultOp → BitVec 3
  | .none => 0#3
  | .opcodeFetch => 1#3
  | .operandFetch => 2#3
  | .read16 => 3#3
  | .write16 => 4#3
  | .jumpTarget => 5#3

end Sys2Proof.Machine
end

