-- ==== Sys2Proof/Machine/Reference.lean ====
section
/-! DEFINITION. A second reading of one Step, transcribed line by line from the pseudocode of
`spec/40_execution_loop.md` rule R80 and of the instruction rules: byte by byte, on raw operand bytes, with none of
`Instr`, `decode`, `exec` or the shared operations. `step` is the machine; this function is what a statement
compares it with, so that a slip in the decoder, the dispatch or the order of the checks shows. -/

namespace Sys2Proof.Machine

/-- `x[c]` for a register code (R9); the loop's step (g) has excluded codes above 2. -/
def slot (s : State) (c : Byte) : Word :=
  if c.toNat = 0 then s.ip else if c.toNat = 1 then s.r1 else s.r2

/-- `x[c] <- v` (R9). -/
def setSlot (s : State) (c : Byte) (v : Word) : State :=
  if c.toNat = 0 then { s with ip := v } else if c.toNat = 1 then { s with r1 := v } else { s with r2 := v }

/-- `raise K(info)` (R11, R176). -/
def literalRaise (s : State) (kind : FaultKind) (addr : Word) (opcode : Byte) (op : FaultOp) : State :=
  { s with runState := .faulted, fault := ⟨kind, addr, opcode, op⟩ }

/-- Step (h) of R80 for the opcode value `opc` (1 to 7), operand bytes `b1`, `b2`, `b3`, each case the pseudocode of its rule. -/
def literalExecute (s : State) (opc : Nat) (b1 b2 b3 : Byte) : State :=
  match opc with
  | 1 => -- R100
    if b2.toNat > 18 then literalRaise s .outOfBounds (b2.setWidth 16) 0x01#8 .read16
    else
      let t := setSlot s b1 (s.mem.peek (b2.toNat + 1) ++ s.mem.peek b2.toNat)
      { t with ip := t.ip + 3#16 }
  | 2 => -- R101
    if b2.toNat > 18 then literalRaise s .outOfBounds (b2.setWidth 16) 0x02#8 .write16
    else
      let v := slot s b1
      { s with
        mem := (s.mem.poke b2.toNat (v.setWidth 8)).poke (b2.toNat + 1) (v.extractLsb' 8 8)
        ip := s.ip + 3#16 }
  | 3 => { s with r1 := slot s b1 + slot s b2, ip := s.ip + 3#16 } -- R111
  | 4 => { s with r1 := slot s b1 - slot s b2, ip := s.ip + 3#16 } -- R112
  | 5 => -- R125
    if b1.toNat > 19 then literalRaise s .outOfBounds (b1.setWidth 16) 0x05#8 .jumpTarget
    else { s with ip := b1.setWidth 16 }
  | 6 => -- R126
    if s.r1 = s.r2 then
      if b1.toNat > 19 then literalRaise s .outOfBounds (b1.setWidth 16) 0x06#8 .jumpTarget
      else { s with ip := b1.setWidth 16 }
    else { s with ip := s.ip + 2#16 }
  | _ => -- R113, opcode 7
    let t := setSlot s b1 (slot s b1 + (b3 ++ b2))
    { t with ip := t.ip + 4#16 }

/-- The length of the instruction with opcode value 1 to 7 (R63). -/
def literalLength (opc : Nat) : Nat := if opc = 5 ∨ opc = 6 then 2 else if opc = 7 then 4 else 3

/-- Whether step (g) of R80 rejects the operand bytes (R88): a register byte above 2. -/
def literalBadRegister (opc : Nat) (b1 b2 : Byte) : Bool :=
  decide ((opc ≠ 5 ∧ opc ≠ 6 ∧ b1.toNat > 2) ∨ ((opc = 3 ∨ opc = 4) ∧ b2.toNat > 2))

/-- One Step from a Running state, as R80 writes it. -/
def literalStep (s : State) : State :=
  if s.ip.toInt ≥ 20 then { s with runState := .exhausted }
  else if s.ip.toInt < 0 then literalRaise s .outOfBounds s.ip 0#8 .opcodeFetch
  else
    let p := s.ip.toInt.toNat
    let opc := s.mem.peek p
    if opc.toNat = 0xFF then { s with runState := .halted }
    else if opc.toNat < 1 ∨ 7 < opc.toNat then literalRaise s .illegalInstruction s.ip opc .none
    else if p + literalLength opc.toNat - 1 > 19 then literalRaise s .outOfBounds 20#16 opc .operandFetch
    else
      let b1 := s.mem.peek (p + 1)
      let b2 := s.mem.peek (p + 2)
      let b3 := s.mem.peek (p + 3)
      if literalBadRegister opc.toNat b1 b2 then literalRaise s .illegalInstruction s.ip opc .none
      else literalExecute s opc.toNat b1 b2 b3

end Sys2Proof.Machine
end

