-- ==== Sys2Proof/Safety.lean ====
section
/-! DEFINITION. The terms claims about runs use: which fault records the spec's tables allow, the invariant of the
machine, what a Run reaches, and when a Run is safe. -/

namespace Sys2Proof.Machine

/-- The opcode has a register operand (R61, R88). -/
def namesRegister (o : Opcode) : Bool :=
  match o.format with
  | .n => false
  | .a => false
  | .ra => true
  | .rr => true
  | .ri => true

/-- An opcode byte that IllegalInstruction can report (R171): an undefined one, or one with a register operand. -/
def reportableAsIllegal (opc : Byte) : Bool :=
  match Opcode.ofByte opc with
  | none => true
  | some o => namesRegister o

/-- The records the tables of R171, R172 and R188 allow, and the cleared one. -/
def FaultRecord.allowed (r : FaultRecord) : Bool :=
  match r.kind with
  | .none => decide (r = FaultRecord.cleared)
  | .illegalInstruction =>
    decide (r.op = .none) && decide (r.addr.toNat < Config.memSize) && reportableAsIllegal r.opcode
  | .outOfBounds =>
    match r.op with
    | .none => false
    | .opcodeFetch => decide (s16 r.addr < 0) && decide (r.opcode = 0#8)
    | .operandFetch =>
      decide (r.addr = 20#16) && decide (1 ≤ r.opcode.toNat) && decide (r.opcode.toNat ≤ 7)
    | .read16 => decide (19 ≤ r.addr.toNat) && decide (r.addr.toNat ≤ 255) && decide (r.opcode = 0x01#8)
    | .write16 => decide (19 ≤ r.addr.toNat) && decide (r.addr.toNat ≤ 255) && decide (r.opcode = 0x02#8)
    | .jumpTarget =>
      decide (20 ≤ r.addr.toNat) && decide (r.addr.toNat ≤ 255) &&
        (decide (r.opcode = 0x05#8) || decide (r.opcode = 0x06#8))

/-- The invariant: the memory is in canonical form, the record is one the spec's tables allow, and it reports a fault
exactly in the state Faulted (R31, R171, R172, R176). -/
structure Inv (s : State) : Prop where
  /-- The memory is in canonical form. -/
  mem_wf : s.mem.wf = true
  /-- The record is one the tables allow. -/
  fault_allowed : s.fault.allowed = true
  /-- A fault is reported exactly in Faulted. -/
  fault_iff : s.runState = .faulted ↔ s.fault.kind ≠ .none

/-- `t` is reached from `s` by Steps of the machine (R94). -/
inductive Reaches (s : State) : State → Prop where
  | refl : Reaches s s
  | tail {t u : State} : Reaches s t → step t = .next u → Reaches s u

/-- The Run of an image is safe: no state it reaches is Faulted (R202). -/
def SafeRun (image : Image) : Prop :=
  ∀ t, Reaches (resetWith image State.reset) t → t.runState ≠ .faulted

end Sys2Proof.Machine
end

