-- ==== Sys2Proof/WellFormed.lean ====
section
/-! DEFINITION. When an instruction is well formed. Register operands are well formed by their type: `Reg` has the
three codes of `spec/30_encoding.md` rule R64 and no other, and address and immediate bytes admit every value
(R65, R66). What is left to check is the place: an instruction is well formed at an address when all its bytes
lie in memory (R73, R74 cases (c) and (e)). -/

namespace Sys2Proof

/-- The length of an instruction in bytes (R63). -/
def Instr.length (i : Instr) : Nat := i.opcode.length

/-- A register byte is well formed: it names a slot (R64, R88). -/
def wellFormedRegByte (b : Byte) : Bool := (Reg.ofCode b).isSome

/-- The instruction is well formed at address `p`: every byte of it lies in 0 to 19 (R73, R74, R87). -/
def Instr.wellFormedAt (i : Instr) (p : Nat) : Bool := decide (p + i.length ≤ Config.memSize)

end Sys2Proof
end

