-- ==== Sys2Proof/Certificates/Slice0/Obligations.lean ====
section
/-! DEFINITION. The statements for the provers. Each names the rule of the spec it formalises, and says so where a
clause rests on one of the spec's own decisions (`spec/92_eei_decisions.md`) or on a choice of the model (the
assumption log). -/

open Sys2Proof Sys2Proof.Machine

/-! ### Encoding -/

/-- Decode and encode agree for every instruction, with every operand at every value: register codes, address bytes,
immediates. Every term of `Instr` is well formed (a register operand has only legal codes, R64). -/
def Obligations.DecodeEncodeRoundTrip : Prop :=
  ∀ (i : Instr) (rest : List Byte), decode (encode i ++ rest) = .ok (i, rest)

/-- The other direction: bytes that decode are exactly the encoding of what they decode to, so no bit of an instruction
is ignored (R69, which the spec derives from R62, R64, R65, R66). -/
def Obligations.DecodedBytesAreTheEncoding : Prop :=
  ∀ (bs rest : List Byte) (i : Instr), decode bs = .ok (i, rest) → bs = encode i ++ rest

/-- R62: the complete opcode map, and no other defined byte. -/
def Obligations.OpcodeMapIsComplete : Prop :=
  ∀ (b : Byte) (o : Opcode),
    Opcode.ofByte b = some o ↔
      (b, o) ∈ [(0x01#8, Opcode.loadWord), (0x02#8, .storeWord), (0x03#8, .add), (0x04#8, .sub), (0x05#8, .jmp),
        (0x06#8, .je), (0x07#8, .addi), (0xFF#8, .halt)]

/-- R66: the immediate of ADDI is byte 2 plus 256 times byte 3, all 16 bits, read as signed; with the rule's four
examples. -/
def Obligations.ImmediateIsLowByteFirst : Prop :=
  (∀ (reg : Reg) (immLow immHigh : Byte) (rest : List Byte),
    ∃ imm : Word,
      decode (0x07#8 :: reg.code :: immLow :: immHigh :: rest) = .ok (.addi reg imm, rest) ∧
        imm = immHigh ++ immLow ∧ imm.toNat = immLow.toNat + 256 * immHigh.toNat) ∧
  (decode [0x07#8, 1#8, 0x01#8, 0x00#8] = .ok (.addi .r1 (u16 1), []) ∧
    decode [0x07#8, 1#8, 0xFF#8, 0xFF#8] = .ok (.addi .r1 (u16 (-1)), []) ∧
    decode [0x07#8, 1#8, 0x00#8, 0x80#8] = .ok (.addi .r1 (u16 (-32768)), []) ∧
    decode [0x07#8, 1#8, 0xFF#8, 0x7F#8] = .ok (.addi .r1 (u16 32767), []))

/-- A sanity statement: the nine listings of R70 decode to the instructions they are written for. -/
def Obligations.ListedWordsDecode : Prop :=
  decode [0x01#8, 0x01#8, 0x10#8] = .ok (.loadWord .r1 0x10#8, []) ∧
  decode [0x02#8, 0x01#8, 0x0E#8] = .ok (.storeWord .r1 0x0E#8, []) ∧
  decode [0x03#8, 0x01#8, 0x02#8] = .ok (.add .r1 .r2, []) ∧
  decode [0x04#8, 0x01#8, 0x02#8] = .ok (.sub .r1 .r2, []) ∧
  decode [0x05#8, 0x06#8] = .ok (.jmp 0x06#8, []) ∧
  decode [0x06#8, 0x0E#8] = .ok (.je 0x0E#8, []) ∧
  decode [0x07#8, 0x01#8, 0x01#8, 0x00#8] = .ok (.addi .r1 1#16, []) ∧
  decode [0x07#8, 0x02#8, 0xFF#8, 0xFF#8] = .ok (.addi .r2 0xFFFF#16, []) ∧
  decode [0xFF#8] = .ok (.halt, [])

/-! ### Memory -/

/-- R43: the word read is `M[a+1] || M[a]` when both bytes are in memory, and reads nothing otherwise. -/
def Obligations.WordReadIsLittleEndian : Prop :=
  ∀ (m : Memory) (a : Nat),
    (a + 1 ≤ 19 → m.readWord a = some (m.peek (a + 1) ++ m.peek a)) ∧ (19 < a + 1 → m.readWord a = none)

/-- R54: an access is in bounds exactly when every byte address it touches is 0 to 19; for a word, when the address is at
most 18. LOAD_WORD and STORE_WORD with an address of 19 to 255 fault. -/
def Obligations.AccessInBoundsIffEveryByteIs : Prop :=
  (∀ (m : Memory) (a : Nat) (v : Word),
    ((m.readByte a).isSome = true ↔ a ≤ 19) ∧
    ((m.readWord a).isSome = true ↔ ∀ k, k < 2 → a + k ≤ 19) ∧
    ((m.writeWord a v).isSome = true ↔ ∀ k, k < 2 → a + k ≤ 19)) ∧
  (∀ (reg : Reg) (addr : Byte) (s : State), 19 ≤ addr.toNat →
    ∃ t u, exec (.loadWord reg addr) s = .next t ∧ exec (.storeWord reg addr) s = .next u ∧
      t.runState = .faulted ∧ t.fault.kind = .outOfBounds ∧ u.runState = .faulted ∧ u.fault.kind = .outOfBounds)

/-- R103: the round trip. A word written and then read at the same address is the word, also after a further word write
that touches neither of its bytes. -/
def Obligations.StoredWordIsReadBack : Prop :=
  ∀ (m : Memory) (a : Nat) (v : Word), m.wf = true → a ≤ 18 →
    ∃ m', m.writeWord a v = some m' ∧ m'.readWord a = some v ∧
      ∀ (b : Nat) (u : Word) (m'' : Memory), (b + 1 < a ∨ a + 1 < b) → m'.writeWord b u = some m'' →
        m''.readWord a = some v

/-- R50, R46: a word read over two word writes beside it takes its low byte from the high byte of the lower one and its
high byte from the low byte of the upper one, whichever is made first. -/
def Obligations.OverlappingWordsMixBytes : Prop :=
  ∀ (m m1 m2 : Memory) (a : Nat) (u v : Word), m.wf = true →
    ((m.writeWord a u = some m1 ∧ m1.writeWord (a + 2) v = some m2) ∨
      (m.writeWord (a + 2) v = some m1 ∧ m1.writeWord a u = some m2)) →
    m2.readWord (a + 1) = some (v.setWidth 8 ++ u.extractLsb' 8 8)

/-- The model's canonical form (log entry 2) does its work: memories in that form with the same bytes are the same data.
The model's choice of representation for the 20 bytes of R32. -/
def Obligations.CanonicalMemoriesAgreeIfBytesDo : Prop :=
  ∀ m m' : Memory, m.wf = true → m'.wf = true → (∀ a, a ≤ 19 → m.peek a = m'.peek a) → m = m'

/-- R45 (the spec derives it): a Step changes memory only by executing a STORE_WORD whose address is at most 18, and then
every byte but the two it stores to reads as before. -/
def Obligations.OnlyStoreWordChangesMemory : Prop :=
  ∀ s t : State, step s = .next t → t.mem ≠ s.mem →
    ∃ reg addr rest, decode (s.mem.window s.ip.toNat 4) = .ok (.storeWord reg addr, rest) ∧
      (effectiveAddress addr).toNat ≤ 18 ∧
      ∀ a, (effectiveAddress addr).toNat = a → ∀ b, b ≠ a → b ≠ a + 1 → t.mem.peek b = s.mem.peek b

/-! ### The instructions: where each completes, and with what -/

/-- R100: LOAD_WORD with an address of at most 18 completes with the little-endian word in the register and `ip` advanced by
3, and changes nothing else. With `ip` as the destination the advance is added to the word (the spec's decision D2);
the address byte is unsigned (D9). -/
def Obligations.LoadWordCompletes : Prop :=
  ∀ (reg : Reg) (addr : Byte) (s : State), (effectiveAddress addr).toNat ≤ 18 →
    ∀ w : Word, w = s.mem.peek ((effectiveAddress addr).toNat + 1) ++ s.mem.peek (effectiveAddress addr).toNat →
      exec (.loadWord reg addr) s =
        .next (match reg with
          | .ip => { s with ip := w + 3#16 }
          | .r1 => { s with ip := s.ip + 3#16, r1 := w }
          | .r2 => { s with ip := s.ip + 3#16, r2 := w })

/-- R101: STORE_WORD with an address of at most 18 completes with the register's low byte at the address, its high byte at
the next one, every other byte as before, `ip` advanced by 3, and nothing else changed. With `ip` as the source the
value is the opcode's address (D3). -/
def Obligations.StoreWordCompletes : Prop :=
  ∀ (reg : Reg) (addr : Byte) (s : State), s.mem.wf = true →
    ∀ a, (effectiveAddress addr).toNat = a → a ≤ 18 →
      ∀ v : Word, v = (match reg with | .ip => s.ip | .r1 => s.r1 | .r2 => s.r2) →
        ∃ m : Memory,
          exec (.storeWord reg addr) s = .next { s with mem := m, ip := s.ip + 3#16 } ∧
            m.wf = true ∧ m.peek a = v.setWidth 8 ∧ m.peek (a + 1) = v.extractLsb' 8 8 ∧
            ∀ b, b ≠ a → b ≠ a + 1 → m.peek b = s.mem.peek b

/-- R172 (decision D12), R177 (D11): LOAD_WORD and STORE_WORD with an address of 19 to 255 take OutOfBounds with the address
as reported, and change nothing but the run state and the record. -/
def Obligations.LoadStoreOutOfBoundsFault : Prop :=
  ∀ (reg : Reg) (addr : Byte) (s : State), 19 ≤ addr.toNat →
    exec (.loadWord reg addr) s =
        .next { s with runState := .faulted, fault := ⟨.outOfBounds, addr.setWidth 16, 0x01#8, .read16⟩ } ∧
      exec (.storeWord reg addr) s =
        .next { s with runState := .faulted, fault := ⟨.outOfBounds, addr.setWidth 16, 0x02#8, .write16⟩ }

/-- R116, R111, R112, R119: ADD and SUB complete with the result in `r1` whatever registers are named (for SUB the difference
`regA - regB`, R119), advance `ip` by 3 (R111, R112), and write no other register and no byte of memory. Where `regA` or
`regB` is `ip`, the source reads as the opcode's address, which is the spec's decision D3 (R93, log entry 10). -/
def Obligations.AddSubAlwaysWriteR1 : Prop :=
  ∀ (regA regB : Reg) (s : State),
    ∃ t u, exec (.add regA regB) s = .next t ∧ exec (.sub regA regB) s = .next u ∧
      t.r1 = getReg regA s + getReg regB s ∧ u.r1 = getReg regA s - getReg regB s ∧
      t.r2 = s.r2 ∧ u.r2 = s.r2 ∧ t.ip = s.ip + 3#16 ∧ u.ip = s.ip + 3#16 ∧
      t.mem = s.mem ∧ u.mem = s.mem ∧ t.runState = s.runState ∧ u.runState = s.runState ∧
      t.fault = s.fault ∧ u.fault = s.fault ∧ t.steps = s.steps ∧ u.steps = s.steps

/-- R114: in signed values ADD gives `s16(u16(a + b))`, SUB gives `s16(u16(a - b))` and ADDI `s16(u16(a + imm))`, and no
overflow is a fault. Where `regA` or `regB` is `ip`, the source reads as the opcode's address, which is the spec's decision
D3 (R93, log entry 10). ADDI is stated here for `r1`; `AddiCompletes` covers it for `r2` and `ip`. -/
def Obligations.ArithmeticWrapsInSignedValues : Prop :=
  ∀ (regA regB : Reg) (imm : Word) (s : State),
    ∃ t u w, exec (.add regA regB) s = .next t ∧ exec (.sub regA regB) s = .next u ∧
      exec (.addi .r1 imm) s = .next w ∧
      s16 t.r1 = s16 (u16 (s16 (getReg regA s) + s16 (getReg regB s))) ∧
      s16 u.r1 = s16 (u16 (s16 (getReg regA s) - s16 (getReg regB s))) ∧
      s16 w.r1 = s16 (u16 (s16 s.r1 + s16 imm)) ∧
      t.runState = s.runState ∧ u.runState = s.runState ∧ w.runState = s.runState

/-- R113: ADDI completes with the immediate added to the named register in place and `ip` advanced by 4, and changes nothing
else. With `ip` named both are added to it (decisions D2, D3). -/
def Obligations.AddiCompletes : Prop :=
  ∀ (reg : Reg) (imm : Word) (s : State),
    exec (.addi reg imm) s =
      .next (match reg with
        | .ip => { s with ip := s.ip + imm + 4#16 }
        | .r1 => { s with ip := s.ip + 4#16, r1 := s.r1 + imm }
        | .r2 => { s with ip := s.ip + 4#16, r2 := s.r2 + imm })

/-- R91, R127: a JMP, and a JE with `r1 = r2`, to an address of memory completes with `ip` equal to the target, low byte the operand
and high byte zero, and changes nothing else; HALT neither advances nor transfers. That a jump to 0 lands on 0 like any
other is the spec's decision D8 (R129, log entry 11, unsafe against the original); that `ip` stays at the HALT byte is its
decision D23 (R140, log entry 18). -/
def Obligations.TransfersLandOnTheTarget : Prop :=
  (∀ (addr : Byte) (s : State), addr.toNat ≤ 19 → ∀ t : Word, t = (0#8 ++ addr : BitVec 16) →
    exec (.jmp addr) s = .next { s with ip := t } ∧
      (s.r1 = s.r2 → exec (.je addr) s = .next { s with ip := t })) ∧
  (∀ s : State, ∃ t, exec .halt s = .next t ∧ t.ip = s.ip)

/-- R128, R172 (decisions D7, D12): a JMP, and a JE with `r1 = r2`, to 20 to 255 takes OutOfBounds, and `ip` stays. -/
def Obligations.TransferOutsideMemoryFaults : Prop :=
  ∀ (addr : Byte) (s : State), 20 ≤ addr.toNat →
    exec (.jmp addr) s =
        .next { s with runState := .faulted, fault := ⟨.outOfBounds, addr.setWidth 16, 0x05#8, .jumpTarget⟩ } ∧
      (s.r1 = s.r2 → exec (.je addr) s =
        .next { s with runState := .faulted, fault := ⟨.outOfBounds, addr.setWidth 16, 0x06#8, .jumpTarget⟩ })

/-- R126: a JE with `r1 ≠ r2` advances `ip` by 2 and changes nothing else, whatever its operand byte (that the unused target
is not checked is decision D7). -/
def Obligations.JeNotTakenFallsThrough : Prop :=
  ∀ (addr : Byte) (s : State), s.r1 ≠ s.r2 → exec (.je addr) s = .next { s with ip := s.ip + 2#16 }

/-- R140: HALT completes with the run state Halted and nothing else changed, `ip` included (decision D23). -/
def Obligations.HaltCompletes : Prop :=
  ∀ s : State, exec .halt s = .next { s with runState := .halted }

/-- R90: an instruction that does not transfer and does not fault leaves `ip` at the value `ip` has after the effect plus its
length: 3, 3, 3, 3, 4, and 2 for a JE not taken. `ip` after the effect is the opcode's address unless the effect wrote
`ip`. The clauses of LOAD_WORD and ADDI with `ip` as the destination are the spec's decisions D2 (R92) and D3 (R93), and
the wrap of the advance is D18 (R27; all three log entry 10); that a JE not taken falls through with an operand of 20 to 255
too is D7 (R128, log entry 11). -/
def Obligations.AdvanceAddsTheLength : Prop :=
  ∀ (reg regB : Reg) (addr : Byte) (imm : Word) (s : State),
    (addr.toNat ≤ 18 → ∃ t w, exec (.loadWord reg addr) s = .next t ∧ s.mem.readWord addr.toNat = some w ∧
      t.ip = (if reg = .ip then w else s.ip) + 3#16) ∧
    (addr.toNat ≤ 18 → ∃ t, exec (.storeWord reg addr) s = .next t ∧ t.ip = s.ip + 3#16) ∧
    (∃ t, exec (.add reg regB) s = .next t ∧ t.ip = s.ip + 3#16) ∧
    (∃ t, exec (.sub reg regB) s = .next t ∧ t.ip = s.ip + 3#16) ∧
    (∃ t, exec (.addi reg imm) s = .next t ∧ t.ip = (if reg = .ip then s.ip + imm else s.ip) + 4#16) ∧
    (s.r1 ≠ s.r2 → ∃ t, exec (.je addr) s = .next t ∧ t.ip = s.ip + 2#16)

/-- R23: in one Step `r1` changes only by a LOAD_WORD or ADDI that names it, an ADD or a SUB, and `r2` only by a LOAD_WORD or
ADDI that names it. -/
def Obligations.RegistersChangeOnlyAsTabled : Prop :=
  ∀ s t : State, step s = .next t →
    (t.r1 ≠ s.r1 → ∃ i rest, decode (s.mem.window s.ip.toNat 4) = .ok (i, rest) ∧
      ((∃ addr, i = .loadWord .r1 addr) ∨ (∃ imm, i = .addi .r1 imm) ∨ (∃ a b, i = .add a b) ∨ ∃ a b, i = .sub a b)) ∧
    (t.r2 ≠ s.r2 → ∃ i rest, decode (s.mem.window s.ip.toNat 4) = .ok (i, rest) ∧
      ((∃ addr, i = .loadWord .r2 addr) ∨ ∃ imm, i = .addi .r2 imm))

/-- R30, R31, R142: no instruction reads the run state, the fault record or the counter: states that differ only there end
with the same registers and memory. -/
def Obligations.InstructionsReadNoBookkeeping : Prop :=
  ∀ (i : Instr) (s s' t t' : State), s.ip = s'.ip → s.r1 = s'.r1 → s.r2 = s'.r2 → s.mem = s'.mem →
    exec i s = .next t → exec i s' = .next t' →
      t.ip = t'.ip ∧ t.r1 = t'.r1 ∧ t.r2 = t'.r2 ∧ t.mem = t'.mem

/-- R176: taking a fault sets the run state to Faulted and fills the four fields of the record, and does nothing else. -/
def Obligations.FaultEntryFillsTheRecordOnly : Prop :=
  ∀ (kind : FaultKind) (addr : Word) (opcode : Byte) (op : FaultOp) (s : State),
    raise ⟨kind, addr, opcode, op⟩ s =
      { ip := s.ip, r1 := s.r1, r2 := s.r2, mem := s.mem, steps := s.steps
        runState := .faulted
        fault := { kind := kind, addr := addr, opcode := opcode, op := op } }

/-! ### One Step -/

/-- R80, R89: when the bytes at `ip` decode to an instruction, the Step is exactly that instruction's meaning, with nothing
around it. -/
def Obligations.StepRunsTheDecodedInstruction : Prop :=
  ∀ (s : State) (i : Instr) (rest : List Byte), s.runState = .running → s.ip.toNat ≤ 19 →
    decode (s.mem.window s.ip.toNat 4) = .ok (i, rest) → step s = exec i s

/-- R60, R73, R89: an instruction whose encoding stands in memory from `ip` on, all of it inside memory, is what the Step runs:
operand `k` is the byte `M[ip + k]`. -/
def Obligations.StepRunsTheEncodedInstruction : Prop :=
  ∀ (s : State) (i : Instr), s.runState = .running → i.wellFormedAt s.ip.toNat = true →
    (∀ k (h : k < (encode i).length), s.mem.peek (s.ip.toNat + k) = (encode i)[k]) → step s = exec i s

/-- R80, the whole loop: from every Running state the Step is the rule's pseudocode, transcribed on raw bytes with the checks
in the rule's order (`literalStep`; the order is decision D10, the cases behind it D2 to D9, D11, D12, D18 for the wrap of
the advance, D23 to D25). -/
def Obligations.StepRefinesThePseudocode : Prop :=
  ∀ s : State, s.runState = .running → step s = .next (literalStep s)

/-- R82: from Running, a Step ends Exhausted exactly when the signed `ip` is 20 or more, any such value, and then changes
nothing else (that nothing else changes is decision D24). -/
def Obligations.ExhaustedExactlyFromTwenty : Prop :=
  ∀ s : State, s.runState = .running →
    (20 ≤ s.ip.toInt → step s = .next { s with runState := .exhausted }) ∧
    (∀ t, step s = .next t → t.runState = .exhausted → 20 ≤ s.ip.toInt)

/-- R83, R172 (decision D6): a negative `ip` takes OutOfBounds of the opcode fetch, reporting `ip`. -/
def Obligations.NegativeIpFaults : Prop :=
  ∀ s : State, s.runState = .running → s.ip.toInt < 0 →
    step s = .next { s with runState := .faulted, fault := ⟨.outOfBounds, s.ip, 0#8, .opcodeFetch⟩ }

/-- R85, R141: from Running, a Step ends Halted exactly when `ip` is an address of memory and the byte there is 0xFF. -/
def Obligations.HaltedExactlyOnHaltByte : Prop :=
  ∀ s t : State, s.runState = .running → step s = .next t →
    (t.runState = .halted ↔ s.ip.toNat ≤ 19 ∧ s.mem.peek s.ip.toNat = 0xFF#8)

/-- R67, R86: an opcode byte 0x00 or 0x08 to 0xFE raises IllegalInstruction with the byte and its address, and these are all the
bytes but the eight of the map. -/
def Obligations.UndefinedOpcodeIsIllegal : Prop :=
  (∀ s : State, s.runState = .running → s.ip.toNat ≤ 19 →
    (s.mem.peek s.ip.toNat = 0x00#8 ∨
      (0x08 ≤ (s.mem.peek s.ip.toNat).toNat ∧ (s.mem.peek s.ip.toNat).toNat ≤ 0xFE)) →
    ∃ t, step s = .next t ∧ t.runState = .faulted ∧ t.fault.kind = .illegalInstruction ∧
      t.fault.opcode = s.mem.peek s.ip.toNat ∧ t.fault.addr = s.ip) ∧
  (∀ b : Byte, ¬ (b = 0x00#8 ∨ (0x08 ≤ b.toNat ∧ b.toNat ≤ 0xFE)) ↔
    b ∈ [0x01#8, 0x02#8, 0x03#8, 0x04#8, 0x05#8, 0x06#8, 0x07#8, 0xFF#8])

/-- R87, R172 (decisions D5, D12): a defined opcode too close to the end takes OutOfBounds of the operand fetch, always
reporting address 20, whatever its operand bytes hold, a bad register byte included (D10). -/
def Obligations.MissingOperandFaultsAtTwenty : Prop :=
  ∀ (s : State) (o : Opcode), s.runState = .running → s.ip.toNat ≤ 19 →
    Opcode.ofByte (s.mem.peek s.ip.toNat) = some o → 20 < s.ip.toNat + o.length →
      step s = .next { s with
        runState := .faulted, fault := ⟨.outOfBounds, 20#16, s.mem.peek s.ip.toNat, .operandFetch⟩ }

/-- R64, R88, R171 (decision D4): with all operand bytes in memory, a register byte of 3 to 255 takes IllegalInstruction at the
opcode's address, before the address operand is looked at (D10): byte 1 of LOAD_WORD, STORE_WORD, ADDI, ADD and SUB, and
byte 2 of ADD and SUB. -/
def Obligations.BadRegisterByteIsIllegal : Prop :=
  ∀ (s : State) (opc : Byte) (length : Nat), s.runState = .running → s.mem.peek s.ip.toNat = opc →
    (opc, length) ∈ [(0x01#8, 3), (0x02#8, 3), (0x03#8, 3), (0x04#8, 3), (0x07#8, 4)] → s.ip.toNat + length ≤ 20 →
    (3 ≤ (s.mem.peek (s.ip.toNat + 1)).toNat ∨
      ((opc = 0x03#8 ∨ opc = 0x04#8) ∧ 3 ≤ (s.mem.peek (s.ip.toNat + 2)).toNat)) →
      step s = .next { s with runState := .faulted, fault := ⟨.illegalInstruction, s.ip, opc, .none⟩ }

/-- R177 (decision D11), R82, R140: a Step from Running that leaves Running changes no register, no byte of memory and not the
counter. -/
def Obligations.LeavingRunningChangesNoRegisterOrMemory : Prop :=
  ∀ s t : State, s.runState = .running → step s = .next t → t.runState ≠ .running →
    t.ip = s.ip ∧ t.r1 = s.r1 ∧ t.r2 = s.r2 ∧ t.mem = s.mem ∧ t.steps = s.steps

/-- R80: every Step of every machine, with or without a cap, answers a next state: the model refuses nothing and stops
nowhere. That a fault of the spec is a next state is log entry 7, that a terminal state steps to itself log entry 1. -/
def Obligations.EveryStepAnswersANextState : Prop :=
  ∀ (limit : Option Nat) (s : State), ∃ t, stepWith limit s = .next t

/-- R53, R206 (decision D15): a store is seen by the next fetch. If the instruction at `ip` is a STORE_WORD to `ip + 3`, the byte
after it, of a register whose low byte is 0xFF, the next Step halts there. -/
def Obligations.StoreIsSeenByTheNextFetch : Prop :=
  ∀ (s t : State) (reg : Reg) (addr : Byte) (rest : List Byte), s.runState = .running → s.mem.wf = true →
    decode (s.mem.window s.ip.toNat 4) = .ok (.storeWord reg addr, rest) → addr.toNat = s.ip.toNat + 3 →
    addr.toNat ≤ 18 → (getReg reg s).setWidth 8 = 0xFF#8 → step s = .next t →
      t.runState = .running ∧ step t = .next { t with runState := .halted }

/-- R143, R154: one Step changes the Output slot's value only by a STORE_WORD that touches byte 0x0E or 0x0F. -/
def Obligations.OutputChangesOnlyByAStore : Prop :=
  ∀ s t : State, step s = .next t → outputValue t.mem ≠ outputValue s.mem →
    ∃ reg addr rest, decode (s.mem.window s.ip.toNat 4) = .ok (.storeWord reg addr, rest) ∧
      0x0D ≤ addr.toNat ∧ addr.toNat ≤ 0x0F

/-! ### Invariants -/

/-- Every Step keeps the invariant: the memory's canonical form, a fault record that the tables of R171, R172 and R188 allow, and a
record that reports a fault exactly in the state Faulted (R31, R176). From every state that meets it, with or without a
cap. -/
def Obligations.StepKeepsTheInvariant : Prop :=
  (∀ s t : State, Inv s → step s = .next t → Inv t) ∧
    ∀ (limit : Option Nat) (s t : State), Inv s → stepWith limit s = .next t → Inv t

/-- The state after reset meets the invariant. -/
def Obligations.ResetMeetsTheInvariant : Prop := Inv State.reset

/-- R200, R33: a reset, in any state, leaves the image in memory byte for byte, the registers zero, Running, the record cleared
(decision D20) and the counter zero; and it meets the invariant. -/
def Obligations.ResetEstablishesTheImage : Prop :=
  ∀ (image : Image) (s : State),
    (∀ a (h : a < 20), (resetWith image s).mem.peek a = image[a]) ∧
    (resetWith image s).ip = 0#16 ∧ (resetWith image s).r1 = 0#16 ∧ (resetWith image s).r2 = 0#16 ∧
    (resetWith image s).runState = .running ∧ (resetWith image s).fault = ⟨.none, 0#16, 0#8, .none⟩ ∧
    (resetWith image s).steps = 0 ∧ Inv (resetWith image s)

/-- R34: nothing of the state before a reset survives it. -/
def Obligations.NothingSurvivesReset : Prop :=
  ∀ (image : Image) (s s' : State), resetWith image s = resetWith image s'

/-- The model's reset state (log entry 2) is the reset with the image of zeros. -/
def Obligations.ResetStateHasTheZeroImage : Prop := ∀ s : State, resetWith zeroImage s = State.reset

/-- R155: the host gets a snapshot exactly in a terminal state, and it holds the run state, the record, the registers and the
20 bytes. The grouping of these four is R152's, which is the spec's decision D19 (log entry 18). The terminal states of
R16 and R30 are Halted, Exhausted and Faulted; that StepLimitReached, the end of a capped Run (R95, decision D14), is
terminal too and gives a snapshot is the model's choice (log entry 4). -/
def Obligations.SnapshotExactlyWhenTerminal : Prop :=
  ∀ s : State,
    (s.runState = .running → snapshot s = none) ∧
    (s.runState ≠ .running → ∃ q, snapshot s = some q ∧ q.runState = s.runState ∧ q.fault = s.fault ∧ q.ip = s.ip ∧
      q.r1 = s.r1 ∧ q.r2 = s.r2 ∧ ∀ a (h : a < 20), q.mem[a] = s.mem.peek a)

/-- R153, R154: the two inputs the host pre-populates are what a word read at 0x10 and at 0x12 gives, and a word stored at 0x0E is
what the host decodes as the result. -/
def Obligations.HostSlotsHoldTheWords : Prop :=
  (∀ (image : Image) (input1 input2 : Word),
    (Memory.ofImage (withInputs image input1 input2)).readWord 0x10 = some input1 ∧
      (Memory.ofImage (withInputs image input1 input2)).readWord 0x12 = some input2) ∧
  ∀ (m m' : Memory) (v : Word), m.wf = true → m.writeWord 0x0E v = some m' → outputValue m' = s16 v

/-! ### Runs -/

/-- R94: every state a Run reaches from a reset, with any image, meets the invariant. -/
def Obligations.ReachedStatesMeetTheInvariant : Prop :=
  ∀ (image : Image) (s t : State), Reaches (resetWith image s) t → Inv t

/-- R81, R31: a terminal state, its record included, stays as it is for any number of Steps. That a Step from a terminal state is
the identity is the model's choice (log entry 1), which R81 allows; that StepLimitReached is terminal is the model's choice
too (log entry 4). -/
def Obligations.TerminalStatesStay : Prop :=
  ∀ (limit : Option Nat) (s : State) (n : Nat), s.runState ≠ .running → runWith limit n s = .next s

/-- R97, R208: a Run need not end. A JMP to itself, at any address where one fits, leaves the machine in the same state after any number
of Steps. -/
def Obligations.JumpToItselfNeverEnds : Prop :=
  ∀ (s : State) (n : Nat), s.runState = .running → s.ip.toNat ≤ 18 → s.mem.peek s.ip.toNat = 0x05#8 →
    (s.mem.peek (s.ip.toNat + 1)).toNat = s.ip.toNat → runWith none n s = .next s

/-- R95 (decision D14): with the cap `n`, a Step from Running that would fetch with `steps = n` ends the Run and changes nothing
else. The place of the test, after the tests of `ip`, is log entry 6. -/
def Obligations.CapStopsTheFetch : Prop :=
  ∀ (n : Nat) (s : State), s.runState = .running → s.ip.toNat ≤ 19 → s.steps = n →
    stepWith (some n) s = .next { s with runState := .stepLimitReached }

/-- R95 (decision D14): with the cap `n` a Run ends: from a state whose counter is at most `n`, after at most `n - steps + 1`
Steps. That StepLimitReached is an end like the others is log entry 4, the place of the cap's test log entry 6. -/
def Obligations.CappedRunEnds : Prop :=
  ∀ (n : Nat) (s : State), s.steps ≤ n →
    ∃ t, runWith (some n) (n - s.steps + 1) s = .next t ∧ t.runState ≠ .running

/-- R95 (decision D14): the counter never passes the cap, and counts exactly the Steps that fetch. -/
def Obligations.CounterNeverPassesTheCap : Prop :=
  ∀ (n : Nat) (s t : State), s.steps ≤ n → stepWith (some n) s = .next t →
    t.steps ≤ n ∧
    (t.steps = s.steps + 1 ↔ s.runState = .running ∧ s.ip.toNat ≤ 19 ∧ s.steps ≠ n) ∧
    (t.steps = s.steps ∨ t.steps = s.steps + 1)

/-- R95 (decision D14): until the cap is reached a capped machine takes the Steps of the uncapped one, the counter apart. -/
def Obligations.CapChangesOnlyTheCounter : Prop :=
  ∀ (n : Nat) (s t : State), stepWith (some n) s = .next t → t.runState ≠ .stepLimitReached →
    step s = .next { t with steps := s.steps }

/-- The model's choice for the host's interface (log entry 2): an instruction of the opcode table that is placed where the machine
fetches is what the next Step runs, from every state whose memory is in canonical form. -/
def Obligations.PlacedInstructionRunsNext : Prop :=
  ∀ (s : State) (nbits w : Nat) (i : Instr), s.mem.wf = true → decodeTableWord nbits w = some i →
    step (s.withFetchWord nbits w) = exec i (s.withFetchWord nbits w)
end

