-- ==== Sys2Proof/Laws/Alu.lean ====
section
/-! SUPPORT. The ALU's operations said once: byte assembly and splitting are inverse to each other, EQ is equality, a
zero-extended byte has the byte's value. -/

namespace Sys2Proof.Laws

open Sys2Proof.Machine

theorem assemble_toNat (lo hi : Byte) : (assemble lo hi).toNat = lo.toNat + 256 * hi.toNat := by
  have h1 := lo.isLt
  have h2 := hi.isLt
  simp only [assemble, aluOr, zext16, aluShl8, BitVec.toNat_or, BitVec.toNat_shiftLeft, BitVec.toNat_setWidth]
  rw [Nat.mod_eq_of_lt (by omega : lo.toNat < 2 ^ 16), Nat.mod_eq_of_lt (by omega : hi.toNat < 2 ^ 16),
    Nat.mod_eq_of_lt (by rw [Nat.shiftLeft_eq]; omega : hi.toNat <<< 8 < 2 ^ 16), Nat.or_comm,
    ← Nat.shiftLeft_add_eq_or_of_lt (by omega : lo.toNat < 2 ^ 8), Nat.shiftLeft_eq]
  omega

/-- A word assembled from two bytes is the high byte followed by the low byte (R8). -/
theorem assemble_eq_append (lo hi : Byte) : assemble lo hi = hi ++ lo := by
  apply BitVec.eq_of_toNat_eq
  have h1 := lo.isLt
  rw [assemble_toNat, BitVec.toNat_append, ← Nat.shiftLeft_add_eq_or_of_lt (by omega : lo.toNat < 2 ^ 8),
    Nat.shiftLeft_eq]
  omega

theorem lowByte_toNat (v : Word) : (lowByte v).toNat = v.toNat % 256 := by
  have h : v.toNat &&& 255 = v.toNat % 256 := Nat.and_two_pow_sub_one_eq_mod v.toNat 8
  simp only [lowByte, aluAnd, BitVec.toNat_setWidth, BitVec.toNat_and, BitVec.toNat_ofNat, Nat.reducePow, Nat.reduceMod,
    h]
  omega

theorem highByte_toNat (v : Word) : (highByte v).toNat = v.toNat / 256 := by
  have hv := v.isLt
  have h : (v.toNat &&& 65280) >>> 8 = v.toNat / 256 := by
    rw [Nat.shiftRight_and_distrib, Nat.shiftRight_eq_div_pow]
    have : (65280 : Nat) >>> 8 = 2 ^ 8 - 1 := by decide
    rw [this, Nat.and_two_pow_sub_one_eq_mod]
    omega
  simp only [highByte, aluAnd, BitVec.toNat_setWidth, BitVec.toNat_ushiftRight, BitVec.toNat_and, BitVec.toNat_ofNat,
    Nat.reducePow, Nat.reduceMod, h]
  omega

@[simp] theorem assemble_lowByte_highByte (v : Word) : assemble (lowByte v) (highByte v) = v := by
  apply BitVec.eq_of_toNat_eq
  rw [assemble_toNat, lowByte_toNat, highByte_toNat]
  omega

@[simp] theorem lowByte_assemble (lo hi : Byte) : lowByte (assemble lo hi) = lo := by
  apply BitVec.eq_of_toNat_eq
  have := lo.isLt
  rw [lowByte_toNat, assemble_toNat]
  omega

@[simp] theorem highByte_assemble (lo hi : Byte) : highByte (assemble lo hi) = hi := by
  apply BitVec.eq_of_toNat_eq
  have := lo.isLt
  rw [highByte_toNat, assemble_toNat]
  omega

/-- EQ is equality of patterns (R118). -/
theorem aluEq_iff (a b : Word) : aluEq a b = true ↔ a = b := by
  simp [aluEq, aluXor, BitVec.xor_eq_zero_iff]

@[simp] theorem zext16_toNat (b : Byte) : (zext16 b).toNat = b.toNat := by
  have := b.isLt
  simp only [zext16, BitVec.toNat_setWidth]
  omega

end Sys2Proof.Laws
end

