-- ==== Sys2Proof/Laws/Decode.lean ====
section
/-! SUPPORT. What the decoder's pieces answer, each said once: the opcode and register tables are inverse to their
codes, and each format's decoding answers an instruction exactly on the bytes the format spells. -/

namespace Sys2Proof.Laws

open Sys2Proof.Machine

@[simp] theorem ofByte_byte (o : Opcode) : Opcode.ofByte o.byte = some o := by cases o <;> rfl

theorem ofByte_eq_some {b : Byte} {o : Opcode} (h : Opcode.ofByte b = some o) : b = o.byte := by
  simp only [Opcode.ofByte] at h
  split_ifs at h with h1 h2 h3 h4 h5 h6 h7 h8 <;> cases h <;> assumption

theorem byte_injective {o o' : Opcode} (h : o.byte = o'.byte) : o = o' :=
  Option.some.inj (by rw [← ofByte_byte o, h, ofByte_byte])

@[simp] theorem ofCode_code (r : Reg) : Reg.ofCode r.code = some r := by cases r <;> rfl

theorem ofCode_eq_some {b : Byte} {r : Reg} (h : Reg.ofCode b = some r) : b = r.code := by
  simp only [Reg.ofCode] at h
  split_ifs at h <;> cases h <;> assumption

/-- A register byte is refused exactly when it is 3 to 255 (R64). -/
theorem ofCode_eq_none_iff (b : Byte) : Reg.ofCode b = none ↔ 3 ≤ b.toNat := by
  revert b
  decide

/-- An opcode byte is illegal exactly when it is 0x00 or 0x08 to 0xFE (R67). -/
theorem ofByte_eq_none_iff (b : Byte) :
    Opcode.ofByte b = none ↔ b.toNat = 0 ∨ (8 ≤ b.toNat ∧ b.toNat ≤ 254) := by
  revert b
  decide

theorem decodeA_ok {o : Opcode} {mk : Byte → Instr} {bs rest : List Byte} {i : Instr}
    (h : decodeA o mk bs = .ok (i, rest)) : ∃ addr, bs = addr :: rest ∧ i = mk addr := by
  match bs, h with
  | addr :: _, h => cases h; exact ⟨addr, rfl, rfl⟩

theorem decodeRA_ok {o : Opcode} {mk : Reg → Byte → Instr} {bs rest : List Byte} {i : Instr}
    (h : decodeRA o mk bs = .ok (i, rest)) : ∃ r addr, bs = r.code :: addr :: rest ∧ i = mk r addr := by
  match bs, h with
  | reg :: addr :: tail, h =>
    simp only [decodeRA] at h
    split at h
    · rename_i r hr
      cases h
      exact ⟨r, addr, by rw [ofCode_eq_some hr], rfl⟩
    · cases h

theorem decodeRR_ok {o : Opcode} {mk : Reg → Reg → Instr} {bs rest : List Byte} {i : Instr}
    (h : decodeRR o mk bs = .ok (i, rest)) : ∃ a b, bs = a.code :: b.code :: rest ∧ i = mk a b := by
  match bs, h with
  | regA :: regB :: tail, h =>
    simp only [decodeRR] at h
    split at h
    · rename_i a b ha hb
      cases h
      exact ⟨a, b, by rw [ofCode_eq_some ha, ofCode_eq_some hb], rfl⟩
    · cases h
    · cases h

theorem decodeRI_ok {o : Opcode} {mk : Reg → Word → Instr} {bs rest : List Byte} {i : Instr}
    (h : decodeRI o mk bs = .ok (i, rest)) :
    ∃ r imm, bs = r.code :: lowByte imm :: highByte imm :: rest ∧ i = mk r imm := by
  match bs, h with
  | reg :: lo :: hi :: tail, h =>
    simp only [decodeRI] at h
    split at h
    · rename_i r hr
      cases h
      exact ⟨r, assemble lo hi, by rw [ofCode_eq_some hr]; simp, rfl⟩
    · cases h

/-- What a refusal of a format can be: the operand byte after the last one present is missing, or a register
byte names no slot (R87, R88). -/
inductive OperandError (o : Opcode) (bs : List Byte) : DecodeError → Prop where
  | missing (h : bs.length + 1 < o.length) : OperandError o bs (.missingOperand o.byte (bs.length + 1))
  | badRegister (h : o.format = .ra ∨ o.format = .rr ∨ o.format = .ri) (hl : o.length ≤ bs.length + 1) :
      OperandError o bs (.badRegister o.byte)

theorem decodeOperands_error {o : Opcode} {bs : List Byte} {e : DecodeError} (h : decodeOperands o bs = .error e) :
    OperandError o bs e := by
  cases o <;> simp only [decodeOperands] at h
  case loadWord | storeWord =>
    match bs, h with
    | [], h => cases h; exact .missing (by decide)
    | [x], h => cases h; exact .missing (show 1 + 1 < 3 by decide)
    | reg :: addr :: tail, h =>
      simp only [decodeRA] at h
      split at h
      · cases h
      · cases h; exact .badRegister (.inl rfl) (show 3 ≤ tail.length + 1 + 1 + 1 by omega)
  case add | sub =>
    match bs, h with
    | [], h => cases h; exact .missing (by decide)
    | [x], h => cases h; exact .missing (show 1 + 1 < 3 by decide)
    | a :: b :: tail, h =>
      simp only [decodeRR] at h
      split at h
      · cases h
      · cases h; exact .badRegister (.inr (.inl rfl)) (show 3 ≤ tail.length + 1 + 1 + 1 by omega)
      · cases h; exact .badRegister (.inr (.inl rfl)) (show 3 ≤ tail.length + 1 + 1 + 1 by omega)
  case jmp | je =>
    match bs, h with
    | [], h => cases h; exact .missing (by decide)
  case addi =>
    match bs, h with
    | [], h => cases h; exact .missing (by decide)
    | [x], h => cases h; exact .missing (show 1 + 1 < 4 by decide)
    | [x, y], h => cases h; exact .missing (show 2 + 1 < 4 by decide)
    | reg :: lo :: hi :: tail, h =>
      simp only [decodeRI] at h
      split at h
      · cases h
      · cases h; exact .badRegister (.inr (.inr rfl)) (show 4 ≤ tail.length + 1 + 1 + 1 + 1 by omega)
  case halt => cases h

/-- What a refusal of the decoder can be (R74). -/
theorem decode_error {opc : Byte} {bs : List Byte} {e : DecodeError} (h : decode (opc :: bs) = .error e) :
    (Opcode.ofByte opc = none ∧ e = .illegalOpcode opc) ∨ ∃ o, Opcode.ofByte opc = some o ∧ OperandError o bs e := by
  simp only [decode] at h
  split at h
  · rename_i hn
    cases h
    exact .inl ⟨hn, rfl⟩
  · rename_i o ho
    exact .inr ⟨o, ho, decodeOperands_error h⟩

end Sys2Proof.Laws
end

