-- ==== Sys2Proof/Laws/Memory.lean ====
section
/-! SUPPORT. The laws of memory: a byte stored is read back and every other byte is as before, and every memory
operation keeps the canonical form. -/

namespace Sys2Proof.Laws

open Sys2Proof.Machine

theorem wfFrom_cons (lo k : Nat) (v : Byte) (m : Memory) :
    Memory.wfFrom lo ((k, v) :: m) = true ↔
      lo ≤ k ∧ k < 20 ∧ v ≠ Memory.unlisted ∧ Memory.wfFrom (k + 1) m = true := by
  simp only [Memory.wfFrom, Bool.and_eq_true, decide_eq_true_eq, Config.memSize]
  tauto

theorem wfFrom_mono {lo lo' : Nat} (h : lo ≤ lo') {m : Memory} (hm : m.wfFrom lo' = true) : m.wfFrom lo = true := by
  cases m with
  | nil => rfl
  | cons c m =>
    obtain ⟨k, v⟩ := c
    rw [wfFrom_cons] at *
    exact ⟨h.trans hm.1, hm.2⟩

/-- A byte below every listed address reads as unlisted. -/
theorem peek_of_lt {lo a : Nat} (h : a < lo) {m : Memory} (hm : m.wfFrom lo = true) : m.peek a = Memory.unlisted := by
  induction m generalizing lo with
  | nil => rfl
  | cons c m ih =>
    obtain ⟨k, v⟩ := c
    rw [wfFrom_cons] at hm
    simp only [Memory.peek]
    rw [if_neg (by omega)]
    exact ih (by omega) hm.2.2.2

/-- Outside memory every byte reads as unlisted. -/
theorem peek_of_ge {lo a : Nat} (h : 20 ≤ a) {m : Memory} (hm : m.wfFrom lo = true) :
    m.peek a = Memory.unlisted := by
  induction m generalizing lo with
  | nil => rfl
  | cons c m ih =>
    obtain ⟨k, v⟩ := c
    rw [wfFrom_cons] at hm
    simp only [Memory.peek]
    rw [if_neg (by omega)]
    exact ih hm.2.2.2

/-- A store leaves every other byte alone. -/
theorem peek_poke_ne {a b : Nat} (h : b ≠ a) (m : Memory) (v : Byte) : (m.poke a v).peek b = m.peek b := by
  induction m with
  | nil =>
    simp only [Memory.poke]
    split <;> simp [Memory.peek, h.symm]
  | cons c m ih =>
    obtain ⟨k, w⟩ := c
    simp only [Memory.poke]
    split_ifs with h1 h2 h2 h3
    · rfl
    · simp [Memory.peek, h.symm]
    · simp [Memory.peek, h2 ▸ h.symm]
    · simp [Memory.peek, h.symm, h2 ▸ h.symm]
    · simp only [Memory.peek, ih]

/-- A byte stored is read back. -/
theorem peek_poke_self_wfFrom {lo : Nat} (a : Nat) {m : Memory} (hm : m.wfFrom lo = true) (v : Byte) :
    (m.poke a v).peek a = v := by
  induction m generalizing lo with
  | nil =>
    simp only [Memory.poke]
    split <;> simp_all [Memory.peek]
  | cons c m ih =>
    obtain ⟨k, w⟩ := c
    have hm' := (wfFrom_cons ..).mp hm
    simp only [Memory.poke]
    split_ifs with h1 h2 h2 h3
    · rw [h2]; exact peek_of_lt h1 (lo := k) ((wfFrom_cons ..).mpr ⟨le_refl k, hm'.2⟩)
    · simp [Memory.peek]
    · rw [h3]; exact peek_of_lt (by omega) hm'.2.2.2
    · simp [Memory.peek]
    · simp only [Memory.peek]
      rw [if_neg (by omega)]
      exact ih hm'.2.2.2

theorem peek_poke_self (a : Nat) {m : Memory} (hm : m.wf = true) (v : Byte) : (m.poke a v).peek a = v :=
  peek_poke_self_wfFrom a hm v

/-- A store inside memory keeps the canonical form. -/
theorem wfFrom_poke {lo a : Nat} (hlo : lo ≤ a) (ha : a < 20) {m : Memory} (hm : m.wfFrom lo = true)
    (v : Byte) : (m.poke a v).wfFrom lo = true := by
  induction m generalizing lo with
  | nil =>
    simp only [Memory.poke]
    split_ifs with h
    · rfl
    · exact (wfFrom_cons ..).mpr ⟨hlo, ha, h, rfl⟩
  | cons c m ih =>
    obtain ⟨k, w⟩ := c
    have hm' := (wfFrom_cons ..).mp hm
    simp only [Memory.poke]
    split_ifs with h1 h2 h2 h3
    · exact hm
    · exact (wfFrom_cons ..).mpr ⟨hlo, ha, h2, (wfFrom_cons ..).mpr ⟨h1, hm'.2⟩⟩
    · exact wfFrom_mono (by omega) hm'.2.2.2
    · exact (wfFrom_cons ..).mpr ⟨hlo, ha, h3, by rw [h2]; exact hm'.2.2.2⟩
    · exact (wfFrom_cons ..).mpr ⟨hm'.1, hm'.2.1, hm'.2.2.1, ih (by omega) hm'.2.2.2⟩

theorem wf_poke {a : Nat} (ha : a < 20) {m : Memory} (hm : m.wf = true) (v : Byte) :
    (m.poke a v).wf = true :=
  wfFrom_poke (Nat.zero_le a) ha hm v

/-- A word write that is in bounds keeps the canonical form (R44). -/
theorem wf_writeWord {a : Nat} {v : Word} {m m' : Memory} (hm : m.wf = true) (h : m.writeWord a v = some m') :
    m'.wf = true := by
  simp only [Memory.writeWord, Config.memSize] at h
  split_ifs at h with ha
  cases h
  exact wf_poke ha (wf_poke (by omega) hm _) _

theorem wf_placeBytes (bs : List Byte) : ∀ (a : Nat) {m : Memory}, m.wf = true → (m.placeBytes a bs).wf = true := by
  induction bs with
  | nil => intro a m hm; exact hm
  | cons b bs ih =>
    intro a m hm
    simp only [Memory.placeBytes, Config.memSize]
    apply ih
    split_ifs with ha
    · exact wf_poke ha hm b
    · exact hm

theorem wfFrom_ofBytes (bs : List Byte) :
    ∀ a, a + bs.length ≤ 20 → (Memory.ofBytes a bs).wfFrom a = true := by
  induction bs with
  | nil => intro a _; rfl
  | cons b bs ih =>
    intro a h
    simp only [List.length_cons] at h
    simp only [Memory.ofBytes]
    split_ifs with hb
    · exact wfFrom_mono (by omega) (ih (a + 1) (by omega))
    · exact (wfFrom_cons ..).mpr ⟨le_refl a, by omega, hb, ih (a + 1) (by omega)⟩

/-- The memory of every image is in canonical form. -/
theorem wf_ofImage (image : Image) : (Memory.ofImage image).wf = true :=
  wfFrom_ofBytes image.toList 0 (by simp)

theorem reset_mem_wf : State.reset.mem.wf = true := rfl

/-- The byte a list of bytes leaves at each of its addresses. -/
theorem peek_ofBytes (bs : List Byte) :
    ∀ a, a + bs.length ≤ 20 → ∀ k (hk : k < bs.length), (Memory.ofBytes a bs).peek (a + k) = bs[k] := by
  induction bs with
  | nil => intro a _ k hk; simp at hk
  | cons b bs ih =>
    intro a h k hk
    simp only [List.length_cons] at h hk
    simp only [Memory.ofBytes]
    cases k with
    | zero =>
      split_ifs with hb
      · rw [peek_of_lt (by omega) (wfFrom_ofBytes bs (a + 1) (by omega))]
        exact hb.symm
      · simp [Memory.peek]
    | succ k =>
      have := ih (a + 1) (by omega) k (by omega)
      have e : a + (k + 1) = a + 1 + k := by omega
      split_ifs with hb
      · rw [e]; exact this
      · simp only [Memory.peek]
        rw [if_neg (by omega), e]
        exact this

/-- What a byte read answers (R42). -/
theorem readByte_of_lt {a : Nat} (h : a < 20) (m : Memory) : m.readByte a = some (m.peek a) := if_pos h

theorem readByte_of_ge {a : Nat} (h : 20 ≤ a) (m : Memory) : m.readByte a = none := if_neg (by simp only [Config.memSize]; omega)

/-- What the loop reads where an instruction of `n` bytes fits: the bytes in increasing address order. -/
theorem window_succ_of_lt {a : Nat} (h : a < 20) (m : Memory) (n : Nat) :
    m.window a (n + 1) = m.peek a :: m.window (a + 1) n := by
  simp [Memory.window, readByte_of_lt h]

theorem window_of_ge {a : Nat} (h : 20 ≤ a) (m : Memory) (n : Nat) : m.window a n = [] := by
  cases n with
  | zero => rfl
  | succ n => simp [Memory.window, readByte_of_ge h]

theorem window_length (m : Memory) (n : Nat) : ∀ a, (m.window a n).length = min n (20 - a) := by
  induction n with
  | zero => intro a; simp [Memory.window]
  | succ n ih =>
    intro a
    by_cases h : a < 20
    · rw [window_succ_of_lt h, List.length_cons, ih]
      omega
    · rw [window_of_ge (by omega)]
      simp only [List.length_nil]
      omega

end Sys2Proof.Laws
end

