-- ==== Sys2Proof/Laws/State.lean ====
section
/-! SUPPORT. What each update of the state leaves in each field, true by definition, so that no proof unfolds a
record update. -/

namespace Sys2Proof.Laws

open Sys2Proof.Machine

variable (v : Word) (s : State) (rec : FaultRecord) (o : Opcode)

section SetReg

@[simp] theorem setReg_ip_ip : (setReg .ip v s).ip = v := rfl
@[simp] theorem setReg_ip_r1 : (setReg .ip v s).r1 = s.r1 := rfl
@[simp] theorem setReg_ip_r2 : (setReg .ip v s).r2 = s.r2 := rfl
@[simp] theorem setReg_r1_ip : (setReg .r1 v s).ip = s.ip := rfl
@[simp] theorem setReg_r1_r1 : (setReg .r1 v s).r1 = v := rfl
@[simp] theorem setReg_r1_r2 : (setReg .r1 v s).r2 = s.r2 := rfl
@[simp] theorem setReg_r2_ip : (setReg .r2 v s).ip = s.ip := rfl
@[simp] theorem setReg_r2_r1 : (setReg .r2 v s).r1 = s.r1 := rfl
@[simp] theorem setReg_r2_r2 : (setReg .r2 v s).r2 = v := rfl

variable (r : Reg)

@[simp] theorem setReg_mem : (setReg r v s).mem = s.mem := by cases r <;> rfl
@[simp] theorem setReg_runState : (setReg r v s).runState = s.runState := by cases r <;> rfl
@[simp] theorem setReg_fault : (setReg r v s).fault = s.fault := by cases r <;> rfl
@[simp] theorem setReg_steps : (setReg r v s).steps = s.steps := by cases r <;> rfl

end SetReg

@[simp] theorem getReg_ip : getReg .ip s = s.ip := rfl
@[simp] theorem getReg_r1 : getReg .r1 s = s.r1 := rfl
@[simp] theorem getReg_r2 : getReg .r2 s = s.r2 := rfl

@[simp] theorem raise_ip : (raise rec s).ip = s.ip := rfl
@[simp] theorem raise_r1 : (raise rec s).r1 = s.r1 := rfl
@[simp] theorem raise_r2 : (raise rec s).r2 = s.r2 := rfl
@[simp] theorem raise_mem : (raise rec s).mem = s.mem := rfl
@[simp] theorem raise_runState : (raise rec s).runState = .faulted := rfl
@[simp] theorem raise_fault : (raise rec s).fault = rec := rfl
@[simp] theorem raise_steps : (raise rec s).steps = s.steps := rfl

@[simp] theorem advance_ip : (advance o s).ip = s.ip + BitVec.ofNat 16 o.length := rfl
@[simp] theorem advance_r1 : (advance o s).r1 = s.r1 := rfl
@[simp] theorem advance_r2 : (advance o s).r2 = s.r2 := rfl
@[simp] theorem advance_mem : (advance o s).mem = s.mem := rfl
@[simp] theorem advance_runState : (advance o s).runState = s.runState := rfl
@[simp] theorem advance_fault : (advance o s).fault = s.fault := rfl
@[simp] theorem advance_steps : (advance o s).steps = s.steps := rfl

@[simp] theorem halt_ip : (halt s).ip = s.ip := rfl
@[simp] theorem halt_r1 : (halt s).r1 = s.r1 := rfl
@[simp] theorem halt_r2 : (halt s).r2 = s.r2 := rfl
@[simp] theorem halt_mem : (halt s).mem = s.mem := rfl
@[simp] theorem halt_runState : (halt s).runState = .halted := rfl
@[simp] theorem halt_fault : (halt s).fault = s.fault := rfl
@[simp] theorem halt_steps : (halt s).steps = s.steps := rfl

@[simp] theorem exhaust_ip : (exhaust s).ip = s.ip := rfl
@[simp] theorem exhaust_r1 : (exhaust s).r1 = s.r1 := rfl
@[simp] theorem exhaust_r2 : (exhaust s).r2 = s.r2 := rfl
@[simp] theorem exhaust_mem : (exhaust s).mem = s.mem := rfl
@[simp] theorem exhaust_runState : (exhaust s).runState = .exhausted := rfl
@[simp] theorem exhaust_fault : (exhaust s).fault = s.fault := rfl
@[simp] theorem exhaust_steps : (exhaust s).steps = s.steps := rfl

@[simp] theorem reachStepLimit_ip : (reachStepLimit s).ip = s.ip := rfl
@[simp] theorem reachStepLimit_r1 : (reachStepLimit s).r1 = s.r1 := rfl
@[simp] theorem reachStepLimit_r2 : (reachStepLimit s).r2 = s.r2 := rfl
@[simp] theorem reachStepLimit_mem : (reachStepLimit s).mem = s.mem := rfl
@[simp] theorem reachStepLimit_runState : (reachStepLimit s).runState = .stepLimitReached := rfl
@[simp] theorem reachStepLimit_fault : (reachStepLimit s).fault = s.fault := rfl
@[simp] theorem reachStepLimit_steps : (reachStepLimit s).steps = s.steps := rfl

section CountFetch

variable (limit : Option Nat) (n : Nat)

@[simp] theorem countFetch_none : countFetch none s = s := rfl
@[simp] theorem countFetch_some_steps : (countFetch (some n) s).steps = s.steps + 1 := rfl
@[simp] theorem countFetch_ip : (countFetch limit s).ip = s.ip := by cases limit <;> rfl
@[simp] theorem countFetch_r1 : (countFetch limit s).r1 = s.r1 := by cases limit <;> rfl
@[simp] theorem countFetch_r2 : (countFetch limit s).r2 = s.r2 := by cases limit <;> rfl
@[simp] theorem countFetch_mem : (countFetch limit s).mem = s.mem := by cases limit <;> rfl
@[simp] theorem countFetch_runState : (countFetch limit s).runState = s.runState := by cases limit <;> rfl
@[simp] theorem countFetch_fault : (countFetch limit s).fault = s.fault := by cases limit <;> rfl

end CountFetch

end Sys2Proof.Laws
end

