-- ==== Sys2Proof/Laws/Ops.lean ====
section
/-! SUPPORT. The shared operations and the meanings, each said once: everything it can answer. Later proofs cite these
and unfold no meaning. -/

namespace Sys2Proof.Laws

open Sys2Proof.Machine

@[simp] theorem effectiveAddress_toNat (addr : Byte) : (effectiveAddress addr).toNat = addr.toNat := zext16_toNat addr

/-- The register file (R147): a register reads as it was set, and no other slot changes. -/
theorem getReg_setReg (r r' : Reg) (v : Word) (s : State) :
    getReg r' (setReg r v s) = if r' = r then v else getReg r' s := by
  cases r <;> cases r' <;> rfl

/-- The word read (R43, R54). -/
theorem readWord_eq_some {m : Memory} {a : Nat} {w : Word} :
    m.readWord a = some w ↔ a + 1 < 20 ∧ w = assemble (m.peek a) (m.peek (a + 1)) := by
  simp only [Memory.readWord, Config.memSize]
  split_ifs with h
  · simp [h, eq_comm]
  · simp [h]

theorem readWord_eq_none {m : Memory} {a : Nat} : m.readWord a = none ↔ 20 ≤ a + 1 := by
  simp only [Memory.readWord, Config.memSize]
  split_ifs with h
  · simp; omega
  · simp; omega

theorem writeWord_eq_none {m : Memory} {a : Nat} {v : Word} : m.writeWord a v = none ↔ 20 ≤ a + 1 := by
  simp only [Memory.writeWord, Config.memSize]
  split_ifs with h
  · simp; omega
  · simp; omega

/-- The word write (R44): in bounds, the byte at `a` is the low byte, the byte at `a + 1` the high byte, every other byte
is as before, and the form is kept. -/
theorem writeWord_eq_some {m m' : Memory} {a : Nat} {v : Word} (hm : m.wf = true) (h : m.writeWord a v = some m') :
    a + 1 < 20 ∧ m'.wf = true ∧ m'.peek a = lowByte v ∧ m'.peek (a + 1) = highByte v ∧
      ∀ b, b ≠ a → b ≠ a + 1 → m'.peek b = m.peek b := by
  have hwf := wf_writeWord hm h
  simp only [Memory.writeWord, Config.memSize] at h
  split_ifs at h with ha
  cases h
  have hm1 := wf_poke (a := a) (by omega) hm (lowByte v)
  refine ⟨ha, hwf, ?_, peek_poke_self _ hm1 _, ?_⟩
  · rw [peek_poke_ne (by omega), peek_poke_self _ hm]
  · intro b h1 h2
    rw [peek_poke_ne h2, peek_poke_ne h1]

/-- The frame of a word write needs no canonical form. -/
theorem writeWord_frame {m m' : Memory} {a : Nat} {v : Word} (h : m.writeWord a v = some m') {b : Nat} (h1 : b ≠ a)
    (h2 : b ≠ a + 1) : m'.peek b = m.peek b := by
  simp only [Memory.writeWord, Config.memSize] at h
  split_ifs at h with ha
  cases h
  rw [peek_poke_ne h2, peek_poke_ne h1]

/-- A control transfer (R127, R128): to the target if memory has it, else the fault. -/
theorem transfer_of_le {addr : Byte} (h : addr.toNat < 20) (o : Opcode) (s : State) :
    transfer o addr s = { s with ip := effectiveAddress addr } := by
  simp [transfer, resolveTarget, Config.memSize, h]

theorem transfer_of_ge {addr : Byte} (h : 20 ≤ addr.toNat) (o : Opcode) (s : State) :
    transfer o addr s = raise (outOfBoundsRecord (effectiveAddress addr) o.byte .jumpTarget) s := by
  have : ¬ addr.toNat < 20 := by omega
  simp [transfer, resolveTarget, Config.memSize, this]

/-- Everything a control transfer can do. -/
theorem transfer_cases (o : Opcode) (addr : Byte) (s : State) :
    (addr.toNat < 20 ∧ transfer o addr s = { s with ip := effectiveAddress addr }) ∨
      (20 ≤ addr.toNat ∧
        transfer o addr s = raise (outOfBoundsRecord (effectiveAddress addr) o.byte .jumpTarget) s) := by
  by_cases h : addr.toNat < 20
  · exact .inl ⟨h, transfer_of_le h o s⟩
  · exact .inr ⟨by omega, transfer_of_ge (by omega) o s⟩

theorem execLoadWord_of_lt {addr : Byte} (h : addr.toNat + 1 < 20) (reg : Reg) (s : State) :
    execLoadWord reg addr s =
      .next (advance .loadWord (setReg reg (assemble (s.mem.peek addr.toNat) (s.mem.peek (addr.toNat + 1))) s)) := by
  simp only [execLoadWord, effectiveAddress_toNat, readWord_eq_some.mpr ⟨h, rfl⟩]

theorem execLoadWord_of_ge {addr : Byte} (h : 20 ≤ addr.toNat + 1) (reg : Reg) (s : State) :
    execLoadWord reg addr s = .next (raise (outOfBoundsRecord (effectiveAddress addr) 0x01#8 .read16) s) := by
  simp only [execLoadWord, effectiveAddress_toNat, readWord_eq_none.mpr h]
  rfl

/-- Everything LOAD_WORD can do. -/
theorem execLoadWord_cases {reg : Reg} {addr : Byte} {s t : State} (h : execLoadWord reg addr s = .next t) :
    (addr.toNat + 1 < 20 ∧
      t = advance .loadWord (setReg reg (assemble (s.mem.peek addr.toNat) (s.mem.peek (addr.toNat + 1))) s)) ∨
      (20 ≤ addr.toNat + 1 ∧ t = raise (outOfBoundsRecord (effectiveAddress addr) 0x01#8 .read16) s) := by
  by_cases ha : addr.toNat + 1 < 20
  · rw [execLoadWord_of_lt ha] at h
    exact .inl ⟨ha, (Host.Outcome.next.inj h).symm⟩
  · have ha' : 20 ≤ addr.toNat + 1 := by omega
    rw [execLoadWord_of_ge ha'] at h
    exact .inr ⟨ha', (Host.Outcome.next.inj h).symm⟩

theorem execStoreWord_of_lt {addr : Byte} (h : addr.toNat + 1 < 20) (reg : Reg) (s : State) :
    ∃ m, s.mem.writeWord addr.toNat (getReg reg s) = some m ∧
      execStoreWord reg addr s = .next (advance .storeWord { s with mem := m }) := by
  have : ∃ m, s.mem.writeWord addr.toNat (getReg reg s) = some m := ⟨_, if_pos h⟩
  obtain ⟨m, hm⟩ := this
  exact ⟨m, hm, by simp only [execStoreWord, effectiveAddress_toNat, hm]⟩

theorem execStoreWord_of_ge {addr : Byte} (h : 20 ≤ addr.toNat + 1) (reg : Reg) (s : State) :
    execStoreWord reg addr s = .next (raise (outOfBoundsRecord (effectiveAddress addr) 0x02#8 .write16) s) := by
  simp only [execStoreWord, effectiveAddress_toNat, writeWord_eq_none.mpr h]
  rfl

/-- Everything STORE_WORD can do. -/
theorem execStoreWord_cases {reg : Reg} {addr : Byte} {s t : State} (h : execStoreWord reg addr s = .next t) :
    (addr.toNat + 1 < 20 ∧ ∃ m, s.mem.writeWord addr.toNat (getReg reg s) = some m ∧
      t = advance .storeWord { s with mem := m }) ∨
      (20 ≤ addr.toNat + 1 ∧ t = raise (outOfBoundsRecord (effectiveAddress addr) 0x02#8 .write16) s) := by
  by_cases ha : addr.toNat + 1 < 20
  · obtain ⟨m, hm, e⟩ := execStoreWord_of_lt ha reg s
    rw [e] at h
    exact .inl ⟨ha, m, hm, (Host.Outcome.next.inj h).symm⟩
  · have ha' : 20 ≤ addr.toNat + 1 := by omega
    rw [execStoreWord_of_ge ha'] at h
    exact .inr ⟨ha', (Host.Outcome.next.inj h).symm⟩

theorem equalCondition_iff (s : State) : equalCondition s = true ↔ s.r1 = s.r2 := aluEq_iff s.r1 s.r2

theorem execJe_of_eq {s : State} (h : s.r1 = s.r2) (addr : Byte) : execJe addr s = .next (transfer .je addr s) :=
  if_pos ((equalCondition_iff s).mpr h)

theorem execJe_of_ne {s : State} (h : s.r1 ≠ s.r2) (addr : Byte) : execJe addr s = .next (advance .je s) :=
  if_neg fun e => h ((equalCondition_iff s).mp e)

/-- Everything JE can do. -/
theorem execJe_cases {addr : Byte} {s t : State} (h : execJe addr s = .next t) :
    (s.r1 = s.r2 ∧ t = transfer .je addr s) ∨ (s.r1 ≠ s.r2 ∧ t = advance .je s) := by
  by_cases hr : s.r1 = s.r2
  · rw [execJe_of_eq hr] at h
    exact .inl ⟨hr, (Host.Outcome.next.inj h).symm⟩
  · rw [execJe_of_ne hr] at h
    exact .inr ⟨hr, (Host.Outcome.next.inj h).symm⟩

end Sys2Proof.Laws
end

