-- ==== Sys2Proof/Laws/PerInstr.lean ====
section
/-! SUPPORT. Facts about instructions as syntax, one lemma per constructor of `Instr`. -/

namespace Sys2Proof.Laws.EncodedHead

/-- The encoding begins with the opcode's byte and has the length the opcode fixes (R60, R63). -/
def Statement (i : Instr) : Prop :=
  (encode i).head? = some i.opcode.byte ∧ (encode i).length = i.length

theorem loadWord (reg : Reg) (addr : Byte) : Statement (.loadWord reg addr) := ⟨rfl, rfl⟩
theorem storeWord (reg : Reg) (addr : Byte) : Statement (.storeWord reg addr) := ⟨rfl, rfl⟩
theorem add (regA regB : Reg) : Statement (.add regA regB) := ⟨rfl, rfl⟩
theorem sub (regA regB : Reg) : Statement (.sub regA regB) := ⟨rfl, rfl⟩
theorem jmp (addr : Byte) : Statement (.jmp addr) := ⟨rfl, rfl⟩
theorem je (addr : Byte) : Statement (.je addr) := ⟨rfl, rfl⟩
theorem addi (reg : Reg) (imm : Word) : Statement (.addi reg imm) := ⟨rfl, rfl⟩
theorem halt : Statement .halt := ⟨rfl, rfl⟩

end Sys2Proof.Laws.EncodedHead
end

