-- ==== Sys2Proof/Laws/Step.lean ====
section
/-! SUPPORT. One Step said once: every path through `stepWith`, with the conditions under which it is taken. -/

namespace Sys2Proof.Laws

open Sys2Proof.Machine

theorem isTerminal_eq_false_iff (r : RunState) : r.isTerminal = false ↔ r = .running := by cases r <;> simp [RunState.isTerminal]

theorem stepWith_of_terminal {limit : Option Nat} {s : State} (h : s.runState ≠ .running) :
    stepWith limit s = .next s := by
  have : s.runState.isTerminal = true := by
    cases hr : s.runState <;> first | rfl | exact absurd hr h
  simp [stepWith, this]

theorem stepWith_of_running {limit : Option Nat} {s : State} (h : s.runState = .running) :
    stepWith limit s = runningStep limit s := by
  simp [stepWith, h, RunState.isTerminal]

theorem runningStep_of_ge {limit : Option Nat} {s : State} (h : 20 ≤ s16 s.ip) :
    runningStep limit s = .next (exhaust s) := if_pos h

theorem runningStep_of_neg {limit : Option Nat} {s : State} (h : s16 s.ip < 0) :
    runningStep limit s = .next (raise (outOfBoundsRecord s.ip 0#8 .opcodeFetch) s) := by
  have h20 : ¬ (Config.memSize : Int) ≤ s16 s.ip := by simp only [Config.memSize]; omega
  simp only [runningStep, if_neg h20, if_pos h]

theorem s16_of_toNat_lt {v : Word} (h : v.toNat < 20) : s16 v = (v.toNat : Int) := by
  simp only [s16, BitVec.toInt_eq_toNat_cond]
  rw [if_pos (by omega)]

theorem toNat_lt_of_s16 {v : Word} (h0 : 0 ≤ s16 v) (h : s16 v < 20) : v.toNat < 20 := by
  simp only [s16, BitVec.toInt_eq_toNat_cond] at h0 h
  split_ifs at h0 h <;> omega

theorem runningStep_of_lt {limit : Option Nat} {s : State} (h : s.ip.toNat < 20) :
    runningStep limit s =
      if atStepLimit limit s then .next (reachStepLimit s) else runAt s.ip.toNat (countFetch limit s) := by
  have := s16_of_toNat_lt h
  have h1 : ¬ (Config.memSize : Int) ≤ s16 s.ip := by simp only [Config.memSize]; omega
  have h2 : ¬ s16 s.ip < 0 := by omega
  simp only [runningStep, if_neg h1, if_neg h2]

theorem runAt_of_ok {p : Nat} {s : State} {i : Instr} {rest : List Byte} (h : fetchDecode s.mem p = .ok (i, rest)) :
    runAt p s = exec i s := by
  simp only [runAt, h]

theorem runAt_of_error {p : Nat} {s : State} {e : DecodeError} (h : fetchDecode s.mem p = .error e) :
    runAt p s = .next (raise (decodeFault p e) s) := by
  simp only [runAt, h]

/-- The paths of a Step that answers `t` from a Running state (R80): Exhaustion, the fault of a negative `ip`, the cap,
a fault of fetching or decoding, or an instruction executed. -/
inductive StepPath (limit : Option Nat) (s t : State) : Prop where
  | exhausted (hip : 20 ≤ s16 s.ip) (ht : t = exhaust s)
  | negative (hip : s16 s.ip < 0) (ht : t = raise (outOfBoundsRecord s.ip 0#8 .opcodeFetch) s)
  | capped (hip : s.ip.toNat < 20) (hn : atStepLimit limit s = true) (ht : t = reachStepLimit s)
  | refusedBytes (hip : s.ip.toNat < 20) (hn : atStepLimit limit s = false) (e : DecodeError)
      (he : fetchDecode s.mem s.ip.toNat = .error e) (ht : t = raise (decodeFault s.ip.toNat e) (countFetch limit s))
  | executed (hip : s.ip.toNat < 20) (hn : atStepLimit limit s = false) (i : Instr) (rest : List Byte)
      (hd : fetchDecode s.mem s.ip.toNat = .ok (i, rest)) (ht : exec i (countFetch limit s) = .next t)

theorem stepWith_cases {limit : Option Nat} {s t : State} (hr : s.runState = .running)
    (h : stepWith limit s = .next t) : StepPath limit s t := by
  rw [stepWith_of_running hr] at h
  by_cases h20 : 20 ≤ s16 s.ip
  · rw [runningStep_of_ge h20] at h
    exact .exhausted h20 (Host.Outcome.next.inj h).symm
  by_cases h0 : s16 s.ip < 0
  · rw [runningStep_of_neg h0] at h
    exact .negative h0 (Host.Outcome.next.inj h).symm
  have hip := toNat_lt_of_s16 (v := s.ip) (by omega) (by omega)
  rw [runningStep_of_lt hip] at h
  cases hl : atStepLimit limit s with
  | true =>
    rw [hl, if_pos rfl] at h
    exact .capped hip hl (Host.Outcome.next.inj h).symm
  | false =>
    rw [hl, if_neg (by simp)] at h
    cases hd : fetchDecode s.mem s.ip.toNat with
    | error e =>
      rw [runAt_of_error (by simpa using hd)] at h
      exact .refusedBytes hip hl e hd (Host.Outcome.next.inj h).symm
    | ok q =>
      obtain ⟨i, rest⟩ := q
      rw [runAt_of_ok (rest := rest) (by simpa using hd)] at h
      exact .executed hip hl i rest hd h

/-- The bytes the loop reads at an address of memory begin with the byte stored there. -/
theorem fetchDecode_eq {p : Nat} (h : p < 20) (m : Memory) :
    fetchDecode m p = decode (m.peek p :: m.window (p + 1) 3) := by
  simp only [fetchDecode, Config.maxLength]
  rw [window_succ_of_lt h]

end Sys2Proof.Laws
end

