-- ==== Sys2Proof/Tests/Slice0.lean ====
section
/-! SUPPORT. Tests. The words are written out from `spec/30_encoding.md` rules R61, R62, R64 and R66, the expected results
are the vectors of `spec/95_test_vectors.md` (named in each theorem's comment). Then one witness for each
statement with hypotheses: a concrete state and operands that meet all of them together. -/

namespace Sys2Proof.Tests

open Sys2Proof Sys2Proof.Machine

/-- A Running state with these registers and these bytes from address `p` on, every other byte 0. -/
def cpu (ip r1 r2 : Word) (p : Nat) (bytes : List Byte) : State :=
  { State.reset with ip := ip, r1 := r1, r2 := r2, mem := Memory.ofBytes p bytes }

/-- The state after one Step. -/
def after (s : State) : State :=
  match step s with
  | .next t => t
  | .fault _ => s
  | .refused _ => s

/-- The state after one Step of a machine with a cap. -/
def afterWith (limit : Option Nat) (s : State) : State :=
  match stepWith limit s with
  | .next t => t
  | .fault _ => s
  | .refused _ => s

/-- The registers `ip`, `r1`, `r2` and the run state after one Step, as signed values. -/
def regs (s : State) : RunState × Int × Int × Int :=
  ((after s).runState, s16 (after s).ip, s16 (after s).r1, s16 (after s).r2)

/-- The report after one Step. -/
def report (s : State) : RunState × Int × FaultKind × Int × Byte × FaultOp :=
  ((after s).runState, s16 (after s).ip, (after s).fault.kind, s16 (after s).fault.addr, (after s).fault.opcode,
    (after s).fault.op)

/-! ### Well-formedness: an ill-formed term for each check -/

theorem test_register_code_3_refused : wellFormedRegByte 3#8 = false := by decide
theorem test_register_code_255_refused : wellFormedRegByte 255#8 = false := by decide
theorem test_register_code_2_accepted : wellFormedRegByte 2#8 = true := by decide
theorem test_addi_at_17_refused : (Instr.addi .r1 1#16).wellFormedAt 17 = false := by decide
theorem test_addi_at_16_accepted : (Instr.addi .r1 1#16).wellFormedAt 16 = true := by decide

/-! ### Decoding: every constructor's word, written out bit by bit -/

theorem test_decode_loadWord :
    decode [0b00000001#8, 0b00000010#8, 0b00010010#8] = .ok (.loadWord .r2 18#8, []) := by rfl
theorem test_decode_storeWord :
    decode [0b00000010#8, 0b00000000#8, 0b00001110#8] = .ok (.storeWord .ip 14#8, []) := by rfl
theorem test_decode_add : decode [0b00000011#8, 0b00000010#8, 0b00000001#8] = .ok (.add .r2 .r1, []) := by rfl
theorem test_decode_sub : decode [0b00000100#8, 0b00000001#8, 0b00000010#8] = .ok (.sub .r1 .r2, []) := by rfl
theorem test_decode_jmp : decode [0b00000101#8, 0b00010011#8] = .ok (.jmp 19#8, []) := by rfl
theorem test_decode_je : decode [0b00000110#8, 0b11001000#8] = .ok (.je 200#8, []) := by rfl
theorem test_decode_addi :
    decode [0b00000111#8, 0b00000001#8, 0b00000000#8, 0b10000000#8] = .ok (.addi .r1 0x8000#16, []) := by rfl
theorem test_decode_halt : decode [0b11111111#8, 0b00000001#8] = .ok (.halt, [0b00000001#8]) := by rfl
theorem test_decode_zero_refused : decode [0x00#8] = .error (.illegalOpcode 0x00#8) := by rfl
theorem test_decode_short_refused : decode [0x07#8, 0x01#8, 0x01#8] = .error (.missingOperand 0x07#8 3) := by rfl
theorem test_decode_bad_register : decode [0x03#8, 0x01#8, 0x03#8] = .error (.badRegister 0x03#8) := by rfl
theorem test_decodeTableWord_addi : decodeTableWord 32 0x7FFF0107 = some (.addi .r1 0x7FFF#16) := by rfl

/-! ### One Step each -/

/-- LW5: an odd address across two regions. -/
theorem test_loadWord_odd : regs { cpu 0 0 0 0 [] with
    mem := [(0, 1), (1, 1), (2, 0x11), (0x10, 0xAA), (0x11, 0xBB), (0x12, 0xCC), (0x13, 0xDD)] } =
      (.running, 3, -13125, 0) := by decide
/-- LW15: into `ip`, where the advance wraps. -/
theorem test_loadWord_ip : regs { cpu 0 0 0 0 [] with mem := [(0, 1), (2, 0x10), (0x10, 0xFD), (0x11, 0x7F)] } =
    (.running, -32768, 0, 0) := by decide
/-- SW1: the bytes DE FF. -/
theorem test_storeWord_bytes : (after (cpu 0 (u16 (-34)) 0 0 [2, 1, 0x0E])).mem =
    [(0, 2), (1, 1), (2, 0x0E), (0x0E, 0xDE), (0x0F, 0xFF)] := by decide
/-- SW5: address 19 faults and byte 19 is not written. -/
theorem test_storeWord_at_19 : report (cpu 0 (u16 (-1)) 0 0 [2, 1, 0x13]) =
    (.faulted, 0, .outOfBounds, 19, 2, .write16) ∧
      (after (cpu 0 (u16 (-1)) 0 0 [2, 1, 0x13])).mem = [(0, 2), (1, 1), (2, 0x13)] := by decide
/-- AD3: the wrap. -/
theorem test_add_wraps : regs (cpu 0 1 32767 0 [3, 2, 1]) = (.running, 3, -32768, 32767) := by decide
/-- AD6: `ip` as a source, and the fixed destination. -/
theorem test_add_ip : regs (cpu 6 0 10 6 [3, 0, 2]) = (.running, 9, 16, 10) := by decide
/-- SB1: the direction. -/
theorem test_sub_direction : regs (cpu 0 43 77 0 [4, 1, 2]) = (.running, 3, -34, 77) := by decide
/-- SB5: the fixed destination. -/
theorem test_sub_fixed_destination : regs (cpu 0 1234 5 0 [4, 2, 2]) = (.running, 3, 0, 5) := by decide
/-- AI5: the high byte weighs 256. -/
theorem test_addi_high_byte : regs (cpu 0 1 0 0 [7, 1, 0, 1]) = (.running, 4, 257, 0) := by decide
/-- AI10: a negative computed jump, no fault in this Step. -/
theorem test_addi_ip : regs (cpu 2 0 0 2 [7, 0, 0xF9, 0xFF]) = (.running, -1, 0, 0) := by decide
/-- JM2: a jump to 0. -/
theorem test_jmp_zero : regs (cpu 4 9 8 4 [5, 0]) = (.running, 0, 9, 8) := by decide
/-- JM5: a jump to 20 faults and is not Exhaustion. -/
theorem test_jmp_20 : report (cpu 0 0 0 0 [5, 0x14]) = (.faulted, 0, .outOfBounds, 20, 5, .jumpTarget) := by decide
/-- JE6: not taken, target 200 unused. -/
theorem test_je_not_taken : regs (cpu 0 1 2 0 [6, 0xC8]) = (.running, 2, 1, 2) := by decide
/-- JE7: taken, target 200. -/
theorem test_je_taken_200 : report (cpu 0 2 2 0 [6, 0xC8]) = (.faulted, 0, .outOfBounds, 200, 6, .jumpTarget) := by
  decide
/-- HL2: HALT at 19. -/
theorem test_halt_at_19 : regs (cpu 19 7 8 19 [0xFF]) = (.halted, 19, 7, 8) := by decide
/-- IL4: an illegal opcode at 19, no operand fetch. -/
theorem test_illegal_at_19 : report (cpu 19 0 0 19 [0x80]) = (.faulted, 19, .illegalInstruction, 19, 0x80, .none) := by
  decide
/-- LW18: a bad register byte and a missing operand, operand fetch first. -/
theorem test_operand_fetch_first : report (cpu 18 0 0 18 [1, 3]) =
    (.faulted, 18, .outOfBounds, 20, 1, .operandFetch) := by decide
/-- LW11: a bad register byte and a bad address, register first. -/
theorem test_register_check_first : report (cpu 0 0 0 0 [1, 3, 0xFF]) =
    (.faulted, 0, .illegalInstruction, 0, 1, .none) := by decide
/-- EX4: a negative `ip`. -/
theorem test_negative_ip : report (cpu (u16 (-1)) 0 0 0 []) = (.faulted, -1, .outOfBounds, -1, 0, .opcodeFetch) := by
  decide
/-- EX6: `ip` is not truncated. -/
theorem test_ip_256_exhausted : regs (cpu 256 0 0 0 [0xFF]) = (.exhausted, 256, 0, 0) := by decide
/-- P9: with `STEP_LIMIT` 3 the fourth Step does not fetch. -/
theorem test_cap : (afterWith (some 3) { cpu 0 0 0 0 [5, 0] with steps := 3 }).runState = .stepLimitReached ∧
    (afterWith (some 3) { cpu 0 0 0 0 [5, 0] with steps := 2 }).steps = 3 := by decide
/-- R30, R31: the codes at the boundary. -/
theorem test_codes : RunState.code .faulted = some 3#2 ∧ FaultKind.code .outOfBounds = 2#2 ∧
    FaultOp.code .jumpTarget = 5#3 := by decide
/-- R41: the regions at their ends. -/
theorem test_regions : [0, 13, 14, 15, 16, 17, 18, 19, 20].map Region.ofAddress =
    [some .program, some .program, some .output, some .output, some .input1, some .input1, some .input2, some .input2,
      none] := by decide
/-- IL1: the reset state's image of zeros faults at once. -/
theorem test_reset_steps : report State.reset = (.faulted, 0, .illegalInstruction, 0, 0, .none) := by decide

/-! ### Witnesses: every hypothesis of a statement met together -/

theorem witness_DecodedBytesAreTheEncoding :
    decode [0x05#8, 0x06#8, 0x99#8] = .ok (.jmp 0x06#8, [0x99#8]) := by rfl
theorem witness_WordReadIsLittleEndian : 18 + 1 ≤ 19 ∧ 19 < 19 + 1 := by decide
theorem witness_AccessInBoundsIffEveryByteIs : 19 ≤ (19#8).toNat ∧ 19 ≤ (255#8).toNat := by decide
theorem witness_StoredWordIsReadBack :
    Memory.wf [(0, 1#8)] = true ∧ (18 : Nat) ≤ 18 ∧ ((16 : Nat) + 1 < 18 ∨ 18 + 1 < 16) ∧
      Memory.writeWord [(0, 1#8), (18, 2#8)] 16 0x0304#16 = some [(0, 1#8), (16, 4#8), (17, 3#8), (18, 2#8)] := by
  decide
theorem witness_StoredWordIsReadBack_above : ((2 : Nat) + 1 < 0 ∨ 0 + 1 < 2) ∧ (0 : Nat) ≤ 18 ∧
    Memory.writeWord [(0, 1#8)] 2 0x0304#16 = some [(0, 1#8), (2, 4#8), (3, 3#8)] := by decide
theorem witness_OverlappingWordsMixBytes_lower_first : Memory.wf [] = true ∧
    Memory.writeWord [] 16 0x1122#16 = some [(16, 0x22#8), (17, 0x11#8)] ∧
      Memory.writeWord [(16, 0x22#8), (17, 0x11#8)] (16 + 2) 0x3344#16 =
        some [(16, 0x22#8), (17, 0x11#8), (18, 0x44#8), (19, 0x33#8)] := by decide
theorem witness_OverlappingWordsMixBytes_upper_first : Memory.wf [] = true ∧
    Memory.writeWord [] (0 + 2) 0x3344#16 = some [(2, 0x44#8), (3, 0x33#8)] ∧
      Memory.writeWord [(2, 0x44#8), (3, 0x33#8)] 0 0x1122#16 =
        some [(0, 0x22#8), (1, 0x11#8), (2, 0x44#8), (3, 0x33#8)] := by decide
theorem witness_CanonicalMemoriesAgreeIfBytesDo :
    Memory.wf [(0, 5#8), (19, 7#8)] = true ∧ ∀ a, a ≤ 19 → Memory.peek [(0, 5#8), (19, 7#8)] a = Memory.peek [(0, 5#8), (19, 7#8)] a :=
  ⟨by decide, fun _ _ => rfl⟩

/-- A STORE_WORD to address 18, with a value that changes memory. -/
def storing : State := cpu 0 0x1234 0 0 [2, 1, 18]
/-- A STORE_WORD into the Output slot. -/
def storingOutput : State := cpu 0 0x1234 0 0 [2, 1, 0x0E]
/-- A Running state at the last address a JMP to itself fits. -/
def jumping : State := cpu 18 3 4 18 [5, 18]

theorem witness_OnlyStoreWordChangesMemory : step storing = .next (after storing) ∧ (after storing).mem ≠ storing.mem :=
  ⟨rfl, by decide⟩
theorem witness_LoadWordCompletes : (effectiveAddress 18#8).toNat ≤ 18 ∧
    (0x1234#16 : Word) = (cpu 0 0 0 18 [0x34, 0x12]).mem.peek ((effectiveAddress 18#8).toNat + 1) ++
      (cpu 0 0 0 18 [0x34, 0x12]).mem.peek (effectiveAddress 18#8).toNat := by decide
theorem witness_StoreWordCompletes : storing.mem.wf = true ∧ (effectiveAddress 18#8).toNat = 18 ∧ 18 ≤ 18 ∧
    (0x1234#16 : Word) = storing.r1 := by decide
theorem witness_LoadStoreOutOfBoundsFault : 19 ≤ (19#8).toNat ∧ 19 ≤ (255#8).toNat := by decide
theorem witness_TransfersLandOnTheTarget : (19#8).toNat ≤ 19 ∧ (0#8).toNat ≤ 19 ∧ (19#16 : Word) = (0#8 ++ 19#8 : BitVec 16) ∧
    State.reset.r1 = State.reset.r2 := by decide
theorem witness_TransferOutsideMemoryFaults : 20 ≤ (20#8).toNat ∧ 20 ≤ (255#8).toNat ∧ State.reset.r1 = State.reset.r2 := by
  decide
theorem witness_JeNotTakenFallsThrough : jumping.r1 ≠ jumping.r2 := by decide
theorem witness_AdvanceAddsTheLength : (18#8).toNat ≤ 18 ∧ jumping.r1 ≠ jumping.r2 := by decide
theorem witness_RegistersChangeOnlyAsTabled_r1 :
    step (cpu 0 0 0 0 [7, 1, 1, 0]) = .next (after (cpu 0 0 0 0 [7, 1, 1, 0])) ∧
      (after (cpu 0 0 0 0 [7, 1, 1, 0])).r1 ≠ (cpu 0 0 0 0 [7, 1, 1, 0]).r1 := ⟨rfl, by decide⟩
theorem witness_RegistersChangeOnlyAsTabled_r2 :
    step (cpu 0 0 0 0 [1, 2, 0]) = .next (after (cpu 0 0 0 0 [1, 2, 0])) ∧
      (after (cpu 0 0 0 0 [1, 2, 0])).r2 ≠ (cpu 0 0 0 0 [1, 2, 0]).r2 := ⟨rfl, by decide⟩
theorem witness_InstructionsReadNoBookkeeping :
    State.reset.ip = { State.reset with steps := 9, runState := .halted }.ip ∧
      exec .halt State.reset = .next (halt State.reset) ∧
      exec .halt { State.reset with steps := 9, runState := .halted } =
        .next (halt { State.reset with steps := 9, runState := .halted }) := ⟨rfl, rfl, rfl⟩
theorem witness_StepRunsTheDecodedInstruction : (cpu 19 0 0 19 [0xFF]).runState = .running ∧
    (cpu 19 0 0 19 [0xFF]).ip.toNat ≤ 19 ∧ decode ((cpu 19 0 0 19 [0xFF]).mem.window 19 4) = .ok (.halt, []) :=
  ⟨rfl, by decide, rfl⟩
theorem witness_StepRunsTheEncodedInstruction : jumping.runState = .running ∧
    (Instr.jmp 18#8).wellFormedAt jumping.ip.toNat = true ∧
      ∀ k (h : k < (encode (.jmp 18#8)).length), jumping.mem.peek (jumping.ip.toNat + k) = (encode (.jmp 18#8))[k] := by
  decide
theorem witness_StepRefinesThePseudocode : State.reset.runState = .running := rfl
theorem witness_ExhaustedExactlyFromTwenty : (cpu 20 0 0 0 []).runState = .running ∧ 20 ≤ (cpu 20 0 0 0 []).ip.toInt ∧
    step (cpu 20 0 0 0 []) = .next (after (cpu 20 0 0 0 [])) ∧ (after (cpu 20 0 0 0 [])).runState = .exhausted :=
  ⟨rfl, by decide, rfl, rfl⟩
theorem witness_NegativeIpFaults : (cpu 0xFFFF 0 0 0 []).runState = .running ∧ (cpu 0xFFFF 0 0 0 []).ip.toInt < 0 ∧
    (cpu 0x8000 0 0 0 []).ip.toInt < 0 := by decide
theorem witness_HaltedExactlyOnHaltByte : (cpu 19 0 0 19 [0xFF]).runState = .running ∧
    step (cpu 19 0 0 19 [0xFF]) = .next (after (cpu 19 0 0 19 [0xFF])) ∧ (after (cpu 19 0 0 19 [0xFF])).runState = .halted :=
  ⟨rfl, rfl, rfl⟩
theorem witness_UndefinedOpcodeIsIllegal : (cpu 19 0 0 19 [0xFE]).runState = .running ∧ (cpu 19 0 0 19 [0xFE]).ip.toNat ≤ 19 ∧
    (cpu 19 0 0 19 [0]).mem.peek 19 = 0x00#8 ∧ 0x08 ≤ ((cpu 19 0 0 19 [8]).mem.peek 19).toNat ∧
    0x08 ≤ ((cpu 19 0 0 19 [0xFE]).mem.peek 19).toNat ∧ ((cpu 19 0 0 19 [0xFE]).mem.peek 19).toNat ≤ 0xFE := by decide
theorem witness_MissingOperandFaultsAtTwenty : (cpu 17 0 0 17 [7]).runState = .running ∧ (cpu 17 0 0 17 [7]).ip.toNat ≤ 19 ∧
    Opcode.ofByte ((cpu 17 0 0 17 [7]).mem.peek (cpu 17 0 0 17 [7]).ip.toNat) = some .addi ∧
      20 < (cpu 17 0 0 17 [7]).ip.toNat + Opcode.length .addi := by decide
theorem witness_MissingOperandFaultsAtTwenty_last : (cpu 19 0 0 19 [5]).ip.toNat ≤ 19 ∧
    Opcode.ofByte ((cpu 19 0 0 19 [5]).mem.peek (cpu 19 0 0 19 [5]).ip.toNat) = some .jmp ∧
      20 < (cpu 19 0 0 19 [5]).ip.toNat + Opcode.length .jmp := by decide
theorem witness_BadRegisterByteIsIllegal_byte1 : (cpu 16 0 0 16 [7, 3]).runState = .running ∧
    (cpu 16 0 0 16 [7, 3]).mem.peek (cpu 16 0 0 16 [7, 3]).ip.toNat = 0x07#8 ∧
      (0x07#8, 4) ∈ [(0x01#8, 3), (0x02#8, 3), (0x03#8, 3), (0x04#8, 3), (0x07#8, 4)] ∧
      (cpu 16 0 0 16 [7, 3]).ip.toNat + 4 ≤ 20 ∧ 3 ≤ ((cpu 16 0 0 16 [7, 3]).mem.peek ((cpu 16 0 0 16 [7, 3]).ip.toNat + 1)).toNat := by
  decide
theorem witness_BadRegisterByteIsIllegal_byte2 : (cpu 17 0 0 17 [4, 2, 3]).runState = .running ∧
    (cpu 17 0 0 17 [4, 2, 3]).mem.peek (cpu 17 0 0 17 [4, 2, 3]).ip.toNat = 0x04#8 ∧
      (0x04#8, 3) ∈ [(0x01#8, 3), (0x02#8, 3), (0x03#8, 3), (0x04#8, 3), (0x07#8, 4)] ∧
      (cpu 17 0 0 17 [4, 2, 3]).ip.toNat + 3 ≤ 20 ∧
      3 ≤ ((cpu 17 0 0 17 [4, 2, 3]).mem.peek ((cpu 17 0 0 17 [4, 2, 3]).ip.toNat + 2)).toNat := by decide
theorem witness_LeavingRunningChangesNoRegisterOrMemory : State.reset.runState = .running ∧
    step State.reset = .next (after State.reset) ∧ (after State.reset).runState ≠ .running := ⟨rfl, rfl, by decide⟩
theorem witness_StoreIsSeenByTheNextFetch : (cpu 15 0 255 15 [2, 2, 18]).runState = .running ∧
    (cpu 15 0 255 15 [2, 2, 18]).mem.wf = true ∧
    decode ((cpu 15 0 255 15 [2, 2, 18]).mem.window (cpu 15 0 255 15 [2, 2, 18]).ip.toNat 4) = .ok (.storeWord .r2 18#8, [0]) ∧
    (18#8).toNat = (cpu 15 0 255 15 [2, 2, 18]).ip.toNat + 3 ∧ (18#8).toNat ≤ 18 ∧
    (getReg .r2 (cpu 15 0 255 15 [2, 2, 18])).setWidth 8 = 0xFF#8 ∧
    step (cpu 15 0 255 15 [2, 2, 18]) = .next (after (cpu 15 0 255 15 [2, 2, 18])) :=
  ⟨rfl, by decide, rfl, by decide, by decide, by decide, rfl⟩
theorem witness_OutputChangesOnlyByAStore : step storingOutput = .next (after storingOutput) ∧
    outputValue (after storingOutput).mem ≠ outputValue storingOutput.mem := ⟨rfl, by decide⟩
theorem witness_reset_meets_Inv : Inv State.reset := ⟨rfl, by decide, by decide⟩
theorem witness_StepKeepsTheInvariant : Inv State.reset ∧ step State.reset = .next (after State.reset) ∧
    stepWith (some 0) State.reset = .next (afterWith (some 0) State.reset) := ⟨witness_reset_meets_Inv, rfl, rfl⟩
theorem witness_SnapshotExactlyWhenTerminal : State.reset.runState = .running ∧ (halt State.reset).runState ≠ .running := by
  decide
theorem witness_HostSlotsHoldTheWords : Memory.wf [] = true ∧
    Memory.writeWord [] 0x0E 0xFFDE#16 = some [(0x0E, 0xDE#8), (0x0F, 0xFF#8)] := by decide
theorem witness_ReachedStatesMeetTheInvariant : Reaches (resetWith zeroImage State.reset) (after (resetWith zeroImage State.reset)) :=
  .tail .refl rfl
theorem witness_TerminalStatesStay : (halt State.reset).runState ≠ .running := by decide
theorem witness_JumpToItselfNeverEnds : jumping.runState = .running ∧ jumping.ip.toNat ≤ 18 ∧
    jumping.mem.peek jumping.ip.toNat = 0x05#8 ∧ (jumping.mem.peek (jumping.ip.toNat + 1)).toNat = jumping.ip.toNat := by
  decide
theorem witness_CapStopsTheFetch : { cpu 19 0 0 19 [0xFF] with steps := 3 }.runState = .running ∧
    { cpu 19 0 0 19 [0xFF] with steps := 3 }.ip.toNat ≤ 19 ∧ { cpu 19 0 0 19 [0xFF] with steps := 3 }.steps = 3 := by decide
theorem witness_CappedRunEnds : State.reset.steps ≤ 0 ∧ State.reset.steps ≤ 5 := by decide
theorem witness_CounterNeverPassesTheCap : jumping.steps ≤ 1 ∧ stepWith (some 1) jumping = .next (afterWith (some 1) jumping) ∧
    jumping.runState = .running ∧ jumping.ip.toNat ≤ 19 ∧ jumping.steps ≠ 1 := ⟨by decide, rfl, rfl, by decide, by decide⟩
theorem witness_CapChangesOnlyTheCounter : stepWith (some 1) jumping = .next (afterWith (some 1) jumping) ∧
    (afterWith (some 1) jumping).runState ≠ .stepLimitReached := ⟨rfl, by decide⟩
theorem witness_PlacedInstructionRunsNext : State.reset.mem.wf = true ∧ decodeTableWord 8 0xFF = some .halt := ⟨rfl, rfl⟩
/-- The host's question for one row: the word is decoded, and the first Step after reset runs it. -/
theorem test_placed_jmp_runs : decodeTableWord 16 0x0605 = some (.jmp 6#8) ∧
    (after (State.reset.withFetchWord 16 0x0605)).ip = 6#16 := ⟨rfl, by decide⟩

end Sys2Proof.Tests
end

section
/-! SUPPORT. What one executed instruction can do, said once for all eight meanings, and the paths of a Step sorted by whether
an instruction was executed. The proofs below cite these and unfold no meaning. -/

namespace Sys2Proof.Proofs

open Sys2Proof.Machine Sys2Proof.Laws

/-- The paths of an instruction executed in `s` (R100, R101, R111 to R113, R125, R126, R140), each with the state it answers. -/
inductive ExecPath (s : State) : Instr → State → Prop where
  | loaded (reg : Reg) (addr : Byte) (hlt : addr.toNat + 1 < 20) :
      ExecPath s (.loadWord reg addr)
        (advance .loadWord (setReg reg (assemble (s.mem.peek addr.toNat) (s.mem.peek (addr.toNat + 1))) s))
  | loadFault (reg : Reg) (addr : Byte) (hge : 20 ≤ addr.toNat + 1) :
      ExecPath s (.loadWord reg addr) (raise (outOfBoundsRecord (effectiveAddress addr) 0x01#8 .read16) s)
  | stored (reg : Reg) (addr : Byte) (m : Memory) (hlt : addr.toNat + 1 < 20)
      (hm : s.mem.writeWord addr.toNat (getReg reg s) = some m) :
      ExecPath s (.storeWord reg addr) (advance .storeWord { s with mem := m })
  | storeFault (reg : Reg) (addr : Byte) (hge : 20 ≤ addr.toNat + 1) :
      ExecPath s (.storeWord reg addr) (raise (outOfBoundsRecord (effectiveAddress addr) 0x02#8 .write16) s)
  | added (regA regB : Reg) :
      ExecPath s (.add regA regB) (advance .add (setReg .r1 (aluAdd (getReg regA s) (getReg regB s)) s))
  | subtracted (regA regB : Reg) :
      ExecPath s (.sub regA regB) (advance .sub (setReg .r1 (aluSub (getReg regA s) (getReg regB s)) s))
  | jumped (addr : Byte) : ExecPath s (.jmp addr) (transfer .jmp addr s)
  | jumpedEqual (addr : Byte) (heq : s.r1 = s.r2) : ExecPath s (.je addr) (transfer .je addr s)
  | fellThrough (addr : Byte) (hne : s.r1 ≠ s.r2) : ExecPath s (.je addr) (advance .je s)
  | addedImmediate (reg : Reg) (imm : Word) :
      ExecPath s (.addi reg imm) (advance .addi (setReg reg (aluAdd (getReg reg s) imm) s))
  | halted : ExecPath s .halt (halt s)

/-- An executed instruction takes one of its paths. -/
theorem exec_path {i : Instr} {s t : State} (h : exec i s = .next t) : ExecPath s i t := by
  cases i with
  | loadWord reg addr =>
    obtain ⟨hlt, rfl⟩ | ⟨hge, rfl⟩ := execLoadWord_cases h
    · exact .loaded reg addr hlt
    · exact .loadFault reg addr hge
  | storeWord reg addr =>
    obtain ⟨hlt, m, hm, rfl⟩ | ⟨hge, rfl⟩ := execStoreWord_cases h
    · exact .stored reg addr m hlt hm
    · exact .storeFault reg addr hge
  | add regA regB => cases h; exact .added regA regB
  | sub regA regB => cases h; exact .subtracted regA regB
  | jmp addr => cases h; exact .jumped addr
  | je addr =>
    obtain ⟨heq, rfl⟩ | ⟨hne, rfl⟩ := execJe_cases h
    · exact .jumpedEqual addr heq
    · exact .fellThrough addr hne
  | addi reg imm => cases h; exact .addedImmediate reg imm
  | halt => cases h; exact .halted

/-- A Step executes the instruction decoded at `ip`, or leaves the registers and the memory as they are. -/
theorem stepWith_executes_or_keeps_data {limit : Option Nat} {s t : State} (h : stepWith limit s = .next t) :
    (∃ i rest, decode (s.mem.window s.ip.toNat 4) = .ok (i, rest) ∧ exec i (countFetch limit s) = .next t) ∨
      (t.ip = s.ip ∧ t.r1 = s.r1 ∧ t.r2 = s.r2 ∧ t.mem = s.mem) := by
  by_cases hr : s.runState = .running
  · cases stepWith_cases hr h with
    | exhausted _ ht | negative _ ht | capped _ _ ht | refusedBytes _ _ _ _ ht => right; simp [ht]
    | executed _ _ i rest hd ht => exact .inl ⟨i, rest, hd, ht⟩
  · rw [stepWith_of_terminal hr] at h
    cases h
    exact .inr ⟨rfl, rfl, rfl, rfl⟩

/-! ### What a control transfer keeps (R91) -/

@[simp] theorem transfer_r1 (o : Opcode) (addr : Byte) (s : State) : (transfer o addr s).r1 = s.r1 := by
  obtain ⟨-, h⟩ | ⟨-, h⟩ := transfer_cases o addr s <;> simp [h]

@[simp] theorem transfer_r2 (o : Opcode) (addr : Byte) (s : State) : (transfer o addr s).r2 = s.r2 := by
  obtain ⟨-, h⟩ | ⟨-, h⟩ := transfer_cases o addr s <;> simp [h]

@[simp] theorem transfer_mem (o : Opcode) (addr : Byte) (s : State) : (transfer o addr s).mem = s.mem := by
  obtain ⟨-, h⟩ | ⟨-, h⟩ := transfer_cases o addr s <;> simp [h]

/-- A write to another slot leaves `r1` alone (R147). -/
theorem setReg_r1_of_ne {reg : Reg} (h : reg ≠ .r1) (v : Word) (s : State) : (setReg reg v s).r1 = s.r1 := by
  cases reg with
  | ip | r2 => rfl
  | r1 => exact absurd rfl h

/-- A write to another slot leaves `r2` alone (R147). -/
theorem setReg_r2_of_ne {reg : Reg} (h : reg ≠ .r2) (v : Word) (s : State) : (setReg reg v s).r2 = s.r2 := by
  cases reg with
  | ip | r1 => rfl
  | r2 => exact absurd rfl h

end Sys2Proof.Proofs
end

section
/-! SUPPORT. Which fault records the machine can fill: every one of them is a record of the tables R171, R172 and R188. -/

namespace Sys2Proof.Proofs

open Sys2Proof.Machine Sys2Proof.Laws

theorem allowed_opcodeFetch {ip : Word} (h : s16 ip < 0) :
    (outOfBoundsRecord ip 0#8 .opcodeFetch).allowed = true := by
  simp [FaultRecord.allowed, outOfBoundsRecord, h]

theorem allowed_read16 {addr : Byte} (h : 20 ≤ addr.toNat + 1) :
    (outOfBoundsRecord (effectiveAddress addr) 0x01#8 .read16).allowed = true := by
  have hlow : 19 ≤ addr.toNat := by omega
  have hhigh : addr.toNat ≤ 255 := by omega
  simp [FaultRecord.allowed, outOfBoundsRecord, hlow, hhigh]

theorem allowed_write16 {addr : Byte} (h : 20 ≤ addr.toNat + 1) :
    (outOfBoundsRecord (effectiveAddress addr) 0x02#8 .write16).allowed = true := by
  have hlow : 19 ≤ addr.toNat := by omega
  have hhigh : addr.toNat ≤ 255 := by omega
  simp [FaultRecord.allowed, outOfBoundsRecord, hlow, hhigh]

theorem allowed_jumpTarget {o : Opcode} (ho : o = .jmp ∨ o = .je) {addr : Byte} (h : 20 ≤ addr.toNat) :
    (outOfBoundsRecord (effectiveAddress addr) o.byte .jumpTarget).allowed = true := by
  have hhigh : addr.toNat ≤ 255 := by omega
  obtain rfl | rfl := ho <;> simp [FaultRecord.allowed, outOfBoundsRecord, Opcode.byte, h, hhigh]

theorem allowed_illegal {p : Nat} (hp : p < 20) {opc : Byte} (h : reportableAsIllegal opc = true) :
    (illegalRecord (BitVec.ofNat 16 p) opc).allowed = true := by
  have haddr : (BitVec.ofNat 16 p).toNat = p := Nat.mod_eq_of_lt (by omega)
  simp [FaultRecord.allowed, illegalRecord, h, haddr, hp]

/-- An opcode that has an operand byte is one of 0x01 to 0x07 (R62). -/
theorem byte_le_seven_of_one_lt_length {o : Opcode} (h : 1 < o.length) : 1 ≤ o.byte.toNat ∧ o.byte.toNat ≤ 7 := by
  revert h
  cases o <;> decide

/-- The longest instruction has four bytes (R63). -/
theorem length_le_four (o : Opcode) : o.length ≤ 4 := by cases o <;> decide

theorem namesRegister_of_format {o : Opcode} (h : o.format = .ra ∨ o.format = .rr ∨ o.format = .ri) :
    namesRegister o = true := by
  obtain h | h | h := h <;> simp [namesRegister, h]

/-- The fault of an operand byte missing after those that memory still holds is reported at 20, the first address beyond
memory (R87). -/
theorem allowed_missingOperand {o : Opcode} {m : Memory} {p : Nat} (hp : p < 20)
    (h : (m.window (p + 1) 3).length + 1 < o.length) :
    (decodeFault p (.missingOperand o.byte ((m.window (p + 1) 3).length + 1))).allowed = true := by
  have h4 := length_le_four o
  have hbyte := byte_le_seven_of_one_lt_length (o := o) (by omega)
  have haddr : p + ((m.window (p + 1) 3).length + 1) = 20 := by
    rw [window_length] at h ⊢
    omega
  simp [decodeFault, FaultRecord.allowed, outOfBoundsRecord, haddr, hbyte]

/-- The fault of bytes in memory that are no instruction is one the tables allow (R86, R87, R88). -/
theorem allowed_decodeFault {m : Memory} {p : Nat} (hp : p < 20) {e : DecodeError} (h : fetchDecode m p = .error e) :
    (decodeFault p e).allowed = true := by
  rw [fetchDecode_eq hp] at h
  obtain ⟨hnone, rfl⟩ | ⟨o, -, he⟩ := decode_error h
  · exact allowed_illegal hp (by simp [reportableAsIllegal, hnone])
  · cases he with
    | missing hlen => exact allowed_missingOperand hp hlen
    | badRegister hformat => exact allowed_illegal hp (by simp [reportableAsIllegal, namesRegister_of_format hformat])

theorem decodeFault_kind_ne_none (p : Nat) (e : DecodeError) : (decodeFault p e).kind ≠ .none := by
  cases e <;> exact nofun

end Sys2Proof.Proofs
end

section
/-! The invariant (O39, O40) and the reset (O42). -/

namespace Sys2Proof.Proofs

open Sys2Proof.Machine Sys2Proof.Laws

/-- Taking an allowed fault keeps the invariant (R176). -/
theorem inv_raise {s : State} (hs : Inv s) {rec : FaultRecord} (ha : rec.allowed = true) (hk : rec.kind ≠ .none) :
    Inv (raise rec s) :=
  ⟨hs.mem_wf, ha, iff_of_true rfl hk⟩

/-- A change that raises no fault keeps the invariant if it keeps the memory's form. -/
theorem inv_of_same_fault {s t : State} (hs : Inv s) (hmem : t.mem.wf = true) (hfault : t.fault = s.fault)
    (hrun : t.runState = .faulted ↔ s.runState = .faulted) : Inv t :=
  ⟨hmem, hfault ▸ hs.fault_allowed, by rw [hrun, hfault]; exact hs.fault_iff⟩

theorem inv_countFetch {s : State} (hs : Inv s) (limit : Option Nat) : Inv (countFetch limit s) :=
  inv_of_same_fault hs (by simpa using hs.mem_wf) (by simp) (by simp)

theorem inv_transfer {s : State} (hs : Inv s) {o : Opcode} (ho : o = .jmp ∨ o = .je) (addr : Byte) :
    Inv (transfer o addr s) := by
  obtain ⟨-, h⟩ | ⟨hge, h⟩ := transfer_cases o addr s <;> rw [h]
  · exact inv_of_same_fault hs hs.mem_wf rfl Iff.rfl
  · exact inv_raise hs (allowed_jumpTarget ho hge) nofun

/-- A register write and the advance keep the invariant. -/
theorem inv_advance_setReg {s : State} (hs : Inv s) (o : Opcode) (reg : Reg) (v : Word) :
    Inv (advance o (setReg reg v s)) :=
  inv_of_same_fault hs (by simpa using hs.mem_wf) (by simp) (by simp)

/-- A Running state may end without a fault. -/
theorem inv_of_ended {s t : State} (hs : Inv s) (hr : s.runState = .running) (hmem : t.mem = s.mem)
    (hfault : t.fault = s.fault) (hrun : t.runState ≠ .faulted) : Inv t :=
  inv_of_same_fault hs (hmem ▸ hs.mem_wf) hfault (iff_of_false hrun (by simp [hr]))

/-- Every instruction executed in a Running state keeps the invariant. -/
theorem inv_exec {i : Instr} {s t : State} (hs : Inv s) (hr : s.runState = .running) (h : exec i s = .next t) :
    Inv t := by
  cases exec_path h with
  | loaded | added | subtracted | addedImmediate => exact inv_advance_setReg hs ..
  | loadFault _ _ hge => exact inv_raise hs (allowed_read16 hge) nofun
  | stored _ _ m _ hm => exact inv_of_same_fault hs (wf_writeWord hs.mem_wf hm) rfl Iff.rfl
  | storeFault _ _ hge => exact inv_raise hs (allowed_write16 hge) nofun
  | jumped addr => exact inv_transfer hs (.inl rfl) addr
  | jumpedEqual addr => exact inv_transfer hs (.inr rfl) addr
  | fellThrough => exact inv_of_same_fault hs hs.mem_wf rfl Iff.rfl
  | halted => exact inv_of_ended hs hr rfl rfl nofun

/-- A Step keeps the invariant, whatever the cap (R31, R170 to R172, R188). -/
theorem inv_stepWith {limit : Option Nat} {s t : State} (hs : Inv s) (h : stepWith limit s = .next t) : Inv t := by
  by_cases hr : s.runState = .running
  · cases stepWith_cases hr h with
    | exhausted _ ht => exact inv_of_ended hs hr (by simp [ht]) (by simp [ht]) (by simp [ht])
    | negative hneg ht => exact ht ▸ inv_raise hs (allowed_opcodeFetch hneg) nofun
    | capped _ _ ht => exact inv_of_ended hs hr (by simp [ht]) (by simp [ht]) (by simp [ht])
    | refusedBytes hip _ e he ht =>
      exact ht ▸ inv_raise (inv_countFetch hs limit) (allowed_decodeFault hip he) (decodeFault_kind_ne_none _ e)
    | executed _ _ i _ _ ht => exact inv_exec (inv_countFetch hs limit) (by simpa using hr) ht
  · rw [stepWith_of_terminal hr] at h
    cases h
    exact hs

/-- Settles O39: the machine's Step is the Step at the default cap, so the lemma for every cap gives both clauses. -/
theorem stepKeepsTheInvariant : Obligations.StepKeepsTheInvariant :=
  ⟨fun _ _ hs h => inv_stepWith hs h, fun _ _ _ hs h => inv_stepWith hs h⟩

/-- Settles O40: the empty list of cells is canonical, the record is the cleared one, and the state is Running. -/
theorem resetMeetsTheInvariant : Obligations.ResetMeetsTheInvariant where
  mem_wf := reset_mem_wf
  fault_allowed := by decide
  fault_iff := by decide

/-- Settles O42: the reset event sets every field and reads none of the state before it (R34). -/
theorem nothingSurvivesReset : Obligations.NothingSurvivesReset := by
  intro image s s'
  rfl

end Sys2Proof.Proofs
end

section
/-! Canonical memories are determined by their bytes (O10). -/

namespace Sys2Proof.Proofs

open Sys2Proof.Machine Sys2Proof.Laws

theorem peek_cons (k a : Nat) (v : Byte) (m : Memory) :
    Memory.peek ((k, v) :: m) a = if k = a then v else m.peek a := rfl

/-- The first cell of a canonical memory is found in any canonical memory with the same bytes: nothing is listed before
it there. -/
theorem head_le_of_peek_eq {lo lo' k k' : Nat} {v v' : Byte} {m m' : Memory}
    (hm : Memory.wfFrom lo ((k, v) :: m) = true) (hm' : Memory.wfFrom lo' ((k', v') :: m') = true)
    (h : ∀ a, Memory.peek ((k, v) :: m) a = Memory.peek ((k', v') :: m') a) : k ≤ k' := by
  obtain ⟨-, -, hv', -⟩ := (wfFrom_cons ..).mp hm'
  obtain ⟨-, hrest⟩ := (wfFrom_cons ..).mp hm
  by_contra hlt
  have hfrom_k : Memory.wfFrom k ((k, v) :: m) = true := (wfFrom_cons ..).mpr ⟨le_refl k, hrest⟩
  have habsent : Memory.peek ((k, v) :: m) k' = Memory.unlisted := peek_of_lt (by omega) hfrom_k
  rw [h k', peek_cons, if_pos rfl] at habsent
  exact hv' habsent

/-- Canonical lists of cells that read the same everywhere are equal. -/
theorem eq_of_wfFrom_of_peek_eq {m : Memory} : ∀ {lo lo' : Nat} {m' : Memory}, m.wfFrom lo = true →
    m'.wfFrom lo' = true → (∀ a, m.peek a = m'.peek a) → m = m' := by
  induction m with
  | nil =>
    intro lo lo' m' _ hm' h
    cases m' with
    | nil => rfl
    | cons c' m' =>
      obtain ⟨k', v'⟩ := c'
      obtain ⟨-, -, hv', -⟩ := (wfFrom_cons ..).mp hm'
      exact absurd ((h k').trans (if_pos rfl)).symm hv'
  | cons c m ih =>
    intro lo lo' m' hm hm' h
    obtain ⟨k, v⟩ := c
    cases m' with
    | nil =>
      obtain ⟨-, -, hv, -⟩ := (wfFrom_cons ..).mp hm
      exact absurd ((if_pos rfl).symm.trans (h k)) hv
    | cons c' m' =>
      obtain ⟨k', v'⟩ := c'
      obtain rfl : k = k' := le_antisymm (head_le_of_peek_eq hm hm' h) (head_le_of_peek_eq hm' hm fun a => (h a).symm)
      obtain ⟨-, -, -, htail⟩ := (wfFrom_cons ..).mp hm
      obtain ⟨-, -, -, htail'⟩ := (wfFrom_cons ..).mp hm'
      have hv : v = v' := by simpa [peek_cons] using h k
      have hpeek : ∀ a, Memory.peek m a = Memory.peek m' a := by
        intro a
        by_cases hka : k = a
        · rw [peek_of_lt (by omega) htail, peek_of_lt (by omega) htail']
        · simpa [peek_cons, hka] using h a
      rw [hv, ih htail htail' hpeek]

/-- Settles O10: outside memory both read as unlisted, so they read the same everywhere. -/
theorem canonicalMemoriesAgreeIfBytesDo : Obligations.CanonicalMemoriesAgreeIfBytesDo := by
  intro m m' hm hm' h
  refine eq_of_wfFrom_of_peek_eq hm hm' fun a => ?_
  by_cases ha : a ≤ 19
  · exact h a ha
  · rw [peek_of_ge (by omega) hm, peek_of_ge (by omega) hm']

end Sys2Proof.Proofs
end

section
/-! Which instructions change a register (O23). -/

namespace Sys2Proof.Proofs

open Sys2Proof.Machine Sys2Proof.Laws

/-- The writers of `r1` (R23). -/
theorem exec_changes_r1 {i : Instr} {s t : State} (h : exec i s = .next t) (hne : t.r1 ≠ s.r1) :
    (∃ addr, i = .loadWord .r1 addr) ∨ (∃ imm, i = .addi .r1 imm) ∨ (∃ a b, i = .add a b) ∨ ∃ a b, i = .sub a b := by
  cases exec_path h with
  | loaded reg addr =>
    obtain rfl : reg = .r1 := by_contra fun hreg => hne (setReg_r1_of_ne hreg ..)
    exact .inl ⟨addr, rfl⟩
  | addedImmediate reg imm =>
    obtain rfl : reg = .r1 := by_contra fun hreg => hne (setReg_r1_of_ne hreg ..)
    exact .inr (.inl ⟨imm, rfl⟩)
  | added a b => exact .inr (.inr (.inl ⟨a, b, rfl⟩))
  | subtracted a b => exact .inr (.inr (.inr ⟨a, b, rfl⟩))
  | loadFault | stored | storeFault | jumped | jumpedEqual | fellThrough | halted => simp at hne

/-- The writers of `r2` (R23). -/
theorem exec_changes_r2 {i : Instr} {s t : State} (h : exec i s = .next t) (hne : t.r2 ≠ s.r2) :
    (∃ addr, i = .loadWord .r2 addr) ∨ ∃ imm, i = .addi .r2 imm := by
  cases exec_path h with
  | loaded reg addr =>
    obtain rfl : reg = .r2 := by_contra fun hreg => hne (setReg_r2_of_ne hreg ..)
    exact .inl ⟨addr, rfl⟩
  | addedImmediate reg imm =>
    obtain rfl : reg = .r2 := by_contra fun hreg => hne (setReg_r2_of_ne hreg ..)
    exact .inr ⟨imm, rfl⟩
  | added | subtracted | loadFault | stored | storeFault | jumped | jumpedEqual | fellThrough | halted => simp at hne

/-- Settles O23: a Step that changes a register executed the decoded instruction, and that is one of its writers. -/
theorem registersChangeOnlyAsTabled : Obligations.RegistersChangeOnlyAsTabled := by
  intro s t h
  obtain ⟨i, rest, hd, he⟩ | ⟨-, hr1, hr2, -⟩ := stepWith_executes_or_keeps_data h
  · exact ⟨fun hne => ⟨i, rest, hd, exec_changes_r1 he hne⟩, fun hne => ⟨i, rest, hd, exec_changes_r2 he hne⟩⟩
  · exact ⟨fun hne => absurd hr1 hne, fun hne => absurd hr2 hne⟩

end Sys2Proof.Proofs
end

section
/-! No instruction reads the bookkeeping (O24): every operation takes states that agree on registers and memory to states that
agree on them. -/

namespace Sys2Proof.Proofs

open Sys2Proof.Machine Sys2Proof.Laws

/-- The states agree on what a program can read: the registers and the memory. They may differ in the run state, the fault
record and the counter. -/
structure SameData (s s' : State) : Prop where
  ip : s.ip = s'.ip
  r1 : s.r1 = s'.r1
  r2 : s.r2 = s'.r2
  mem : s.mem = s'.mem

section

variable {s s' : State} (h : SameData s s')

include h

theorem getReg_of_sameData (reg : Reg) : getReg reg s = getReg reg s' := by
  cases reg with
  | ip => exact h.ip
  | r1 => exact h.r1
  | r2 => exact h.r2

theorem sameData_setReg (reg : Reg) (v : Word) : SameData (setReg reg v s) (setReg reg v s') := by
  cases reg with
  | ip => exact ⟨rfl, h.r1, h.r2, h.mem⟩
  | r1 => exact ⟨h.ip, rfl, h.r2, h.mem⟩
  | r2 => exact ⟨h.ip, h.r1, rfl, h.mem⟩

theorem sameData_advance (o : Opcode) : SameData (advance o s) (advance o s') :=
  ⟨by simp [h.ip], h.r1, h.r2, h.mem⟩

theorem sameData_raise (rec : FaultRecord) : SameData (raise rec s) (raise rec s') := ⟨h.ip, h.r1, h.r2, h.mem⟩

theorem sameData_withMem (m : Memory) : SameData { s with mem := m } { s' with mem := m } := ⟨h.ip, h.r1, h.r2, rfl⟩

theorem sameData_transfer (o : Opcode) (addr : Byte) : SameData (transfer o addr s) (transfer o addr s') := by
  by_cases ha : addr.toNat < 20
  · rw [transfer_of_le ha, transfer_of_le ha]
    exact ⟨rfl, h.r1, h.r2, h.mem⟩
  · rw [transfer_of_ge (by omega), transfer_of_ge (by omega)]
    exact sameData_raise h _

/-- An instruction takes the same path from both states, with the same values. -/
theorem exec_of_sameData {i : Instr} {t : State} (he : exec i s = .next t) :
    ∃ t', exec i s' = .next t' ∧ SameData t t' := by
  cases exec_path he with
  | loaded reg addr hlt =>
    refine ⟨_, execLoadWord_of_lt hlt reg s', ?_⟩
    rw [h.mem]
    exact sameData_advance (sameData_setReg h reg _) _
  | loadFault reg addr hge => exact ⟨_, execLoadWord_of_ge hge reg s', sameData_raise h _⟩
  | stored reg addr m hlt hm =>
    obtain ⟨m', hm', he'⟩ := execStoreWord_of_lt hlt reg s'
    obtain rfl : m' = m := by
      rw [h.mem, getReg_of_sameData h, hm'] at hm
      exact Option.some.inj hm
    exact ⟨_, he', sameData_advance (sameData_withMem h m') _⟩
  | storeFault reg addr hge => exact ⟨_, execStoreWord_of_ge hge reg s', sameData_raise h _⟩
  | added regA regB | subtracted regA regB =>
    refine ⟨_, rfl, ?_⟩
    rw [getReg_of_sameData h regA, getReg_of_sameData h regB]
    exact sameData_advance (sameData_setReg h .r1 _) _
  | jumped addr => exact ⟨_, rfl, sameData_transfer h .jmp addr⟩
  | jumpedEqual addr heq =>
    exact ⟨_, execJe_of_eq (h.r1 ▸ h.r2 ▸ heq) addr, sameData_transfer h .je addr⟩
  | fellThrough addr hne =>
    exact ⟨_, execJe_of_ne (h.r1 ▸ h.r2 ▸ hne) addr, sameData_advance h .je⟩
  | addedImmediate reg imm =>
    refine ⟨_, rfl, ?_⟩
    rw [getReg_of_sameData h reg]
    exact sameData_advance (sameData_setReg h reg _) _
  | halted => exact ⟨_, rfl, h.ip, h.r1, h.r2, h.mem⟩

end

/-- Settles O24: states with equal registers and memory agree on the data, and so do the states an instruction answers. -/
theorem instructionsReadNoBookkeeping : Obligations.InstructionsReadNoBookkeeping := by
  intro i s s' t t' hip hr1 hr2 hmem he he'
  obtain ⟨u, hu, hsame⟩ := exec_of_sameData ⟨hip, hr1, hr2, hmem⟩ he
  obtain rfl : u = t' := Host.Outcome.next.inj (hu.symm.trans he')
  exact ⟨hsame.ip, hsame.r1, hsame.r2, hsame.mem⟩

end Sys2Proof.Proofs
end

section
/-! SUPPORT. The memory unit in the spec's notation: the two bytes of a word as bit fields, and when each access is in
bounds. -/

namespace Sys2Proof.Proofs

open Sys2Proof.Machine Sys2Proof.Laws

/-- `v[7:0]` (R44). -/
theorem lowByte_eq_setWidth (v : Word) : lowByte v = v.setWidth 8 := by
  apply BitVec.eq_of_toNat_eq
  rw [lowByte_toNat, BitVec.toNat_setWidth]

/-- `v[15:8]` (R44). -/
theorem highByte_eq_extractLsb' (v : Word) : highByte v = v.extractLsb' 8 8 := by
  apply BitVec.eq_of_toNat_eq
  rw [highByte_toNat, BitVec.extractLsb'_toNat, Nat.shiftRight_eq_div_pow]
  omega

/-- The word read is the high byte followed by the low byte (R43). -/
theorem readWord_of_lt {a : Nat} (h : a + 1 < 20) (m : Memory) :
    m.readWord a = some (m.peek (a + 1) ++ m.peek a) :=
  readWord_eq_some.mpr ⟨h, (assemble_eq_append ..).symm⟩

theorem readByte_isSome_iff (m : Memory) (a : Nat) : (m.readByte a).isSome = true ↔ a < 20 := by
  by_cases h : a < 20
  · simp [readByte_of_lt h, h]
  · simp [readByte_of_ge (Nat.le_of_not_lt h), h]

theorem readWord_isSome_iff (m : Memory) (a : Nat) : (m.readWord a).isSome = true ↔ a + 1 < 20 := by
  rw [Option.isSome_iff_ne_none, ne_eq, readWord_eq_none, not_le]

theorem writeWord_isSome_iff (m : Memory) (a : Nat) (v : Word) : (m.writeWord a v).isSome = true ↔ a + 1 < 20 := by
  rw [Option.isSome_iff_ne_none, ne_eq, writeWord_eq_none, not_le]

/-- Both bytes of a word are in memory exactly when its upper byte is (R54). -/
theorem both_bytes_in_memory_iff (a : Nat) : (∀ k, k < 2 → a + k ≤ 19) ↔ a + 1 < 20 := by
  constructor
  · intro h
    have := h 1 (by omega)
    omega
  · intro h k hk
    omega

end Sys2Proof.Proofs
end

section
/-! What a word access reads, and when it is in bounds (O6, O7). -/

namespace Sys2Proof.Proofs

open Sys2Proof.Machine Sys2Proof.Laws

/-- Settles O6: the unit's word read is bounds-checked, and an assembled word is its high byte followed by its low byte. -/
theorem wordReadIsLittleEndian : Obligations.WordReadIsLittleEndian := by
  intro m a
  constructor
  · intro h
    exact readWord_of_lt (by omega) m
  · intro h
    exact readWord_eq_none.mpr (by omega)

/-- Settles O7: each access checks its highest byte, and an address byte above 18 takes LOAD_WORD and STORE_WORD to their
fault paths. -/
theorem accessInBoundsIffEveryByteIs : Obligations.AccessInBoundsIffEveryByteIs := by
  constructor
  · intro m a v
    rw [readByte_isSome_iff, readWord_isSome_iff, writeWord_isSome_iff, both_bytes_in_memory_iff]
    exact ⟨Nat.lt_succ_iff, Iff.rfl, Iff.rfl⟩
  · intro reg addr s h
    have hge : 20 ≤ addr.toNat + 1 := by omega
    exact ⟨_, _, execLoadWord_of_ge hge reg s, execStoreWord_of_ge hge reg s, rfl, rfl, rfl, rfl⟩

end Sys2Proof.Proofs
end

section
/-! Two word writes at `a` and `a + 2`, read across (O9). -/

namespace Sys2Proof.Proofs

open Sys2Proof.Machine Sys2Proof.Laws

/-- The word across two words takes the upper byte of the lower one and the lower byte of the upper one (R50). -/
theorem readWord_across {m : Memory} {a : Nat} {u v : Word} (ha : a + 3 < 20) (hu : m.peek (a + 1) = highByte u)
    (hv : m.peek (a + 2) = lowByte v) : m.readWord (a + 1) = some (v.setWidth 8 ++ u.extractLsb' 8 8) := by
  rw [readWord_of_lt (by omega), hu, hv, lowByte_eq_setWidth, highByte_eq_extractLsb']

/-- Settles O9: the later write touches neither byte of the earlier one, so in either order both bytes read are as written. -/
theorem overlappingWordsMixBytes : Obligations.OverlappingWordsMixBytes := by
  intro m m1 m2 a u v hm hwrites
  obtain ⟨hlower, hupper⟩ | ⟨hupper, hlower⟩ := hwrites
  · obtain ⟨-, hm1, -, hu, -⟩ := writeWord_eq_some hm hlower
    obtain ⟨ha, -, hv, -, hframe⟩ := writeWord_eq_some hm1 hupper
    exact readWord_across ha (by rw [hframe _ (by omega) (by omega), hu]) hv
  · obtain ⟨ha, hm1, hv, -, -⟩ := writeWord_eq_some hm hupper
    obtain ⟨-, -, -, hu, hframe⟩ := writeWord_eq_some hm1 hlower
    exact readWord_across ha hu (by rw [hframe _ (by omega) (by omega), hv])

end Sys2Proof.Proofs
end

section
/-! Which Steps change memory (O11). -/

namespace Sys2Proof.Proofs

open Sys2Proof.Machine Sys2Proof.Laws

@[simp] theorem getReg_countFetch (reg : Reg) (limit : Option Nat) (s : State) :
    getReg reg (countFetch limit s) = getReg reg s := by
  cases reg <;> simp

/-- The only writer of memory is a STORE_WORD that completes (R45). -/
theorem exec_changes_mem {i : Instr} {s t : State} (h : exec i s = .next t) (hne : t.mem ≠ s.mem) :
    ∃ reg addr, i = .storeWord reg addr ∧ s.mem.writeWord addr.toNat (getReg reg s) = some t.mem := by
  cases exec_path h with
  | stored reg addr m _ hm => exact ⟨reg, addr, rfl, hm⟩
  | loaded | loadFault | storeFault | added | subtracted | jumped | jumpedEqual | fellThrough | addedImmediate | halted =>
    simp at hne

/-- A Step that changes memory executes a STORE_WORD, and the new memory is what its word write answers, whatever the
cap. -/
theorem stepWith_changes_mem {limit : Option Nat} {s t : State} (h : stepWith limit s = .next t)
    (hne : t.mem ≠ s.mem) :
    ∃ reg addr rest, decode (s.mem.window s.ip.toNat 4) = .ok (.storeWord reg addr, rest) ∧
      s.mem.writeWord addr.toNat (getReg reg s) = some t.mem := by
  obtain ⟨i, rest, hd, he⟩ | ⟨-, -, -, hmem⟩ := stepWith_executes_or_keeps_data h
  · obtain ⟨reg, addr, rfl, hw⟩ := exec_changes_mem he (by simpa using hne)
    exact ⟨reg, addr, rest, hd, by simpa using hw⟩
  · exact absurd hmem hne

/-- Settles O11: the word write of that STORE_WORD succeeded, so it was in bounds and left every other byte alone. -/
theorem onlyStoreWordChangesMemory : Obligations.OnlyStoreWordChangesMemory := by
  intro s t h hne
  obtain ⟨reg, addr, rest, hd, hw⟩ := stepWith_changes_mem h hne
  have hlt : addr.toNat + 1 < 20 := (writeWord_isSome_iff ..).mp (Option.isSome_of_eq_some hw)
  refine ⟨reg, addr, rest, hd, by rw [effectiveAddress_toNat]; omega, ?_⟩
  intro a ha b hb hb1
  obtain rfl : addr.toNat = a := by rwa [effectiveAddress_toNat] at ha
  exact writeWord_frame hw hb hb1

end Sys2Proof.Proofs
end

section
/-! SUPPORT. The decoder on bytes that spell an instruction, and the encoder on what was decoded: each format said once,
whatever instruction it builds. -/

namespace Sys2Proof.Proofs

open Sys2Proof.Machine Sys2Proof.Laws

/-- A byte stands for an opcode exactly when it is the opcode's byte (R62). -/
theorem ofByte_eq_some_iff (b : Byte) (o : Opcode) : Opcode.ofByte b = some o ↔ b = o.byte :=
  ⟨ofByte_eq_some, fun h => h ▸ ofByte_byte o⟩

theorem decode_of_ofByte_some {opc : Byte} {o : Opcode} (h : Opcode.ofByte opc = some o) (bs : List Byte) :
    decode (opc :: bs) = decodeOperands o bs := by
  simp only [decode, h]

theorem decode_of_ofByte_none {opc : Byte} (h : Opcode.ofByte opc = none) (bs : List Byte) :
    decode (opc :: bs) = .error (.illegalOpcode opc) := by
  simp only [decode, h]

theorem decodeRA_code (o : Opcode) (mk : Reg → Byte → Instr) (r : Reg) (addr : Byte) (rest : List Byte) :
    decodeRA o mk (r.code :: addr :: rest) = .ok (mk r addr, rest) := by
  simp only [decodeRA, ofCode_code]

theorem decodeRR_code (o : Opcode) (mk : Reg → Reg → Instr) (a b : Reg) (rest : List Byte) :
    decodeRR o mk (a.code :: b.code :: rest) = .ok (mk a b, rest) := by
  simp only [decodeRR, ofCode_code]

theorem decodeRI_code (o : Opcode) (mk : Reg → Word → Instr) (r : Reg) (imm : Word) (rest : List Byte) :
    decodeRI o mk (r.code :: lowByte imm :: highByte imm :: rest) = .ok (mk r imm, rest) := by
  simp only [decodeRI, ofCode_code, assemble_lowByte_highByte]

/-- The bytes of an instruction after its opcode byte (R61). -/
def operandBytes (i : Instr) : List Byte := (encode i).tail

/-- Every encoding begins with its opcode's byte and has the length the opcode fixes (R60, R63). -/
theorem encodedHead (i : Instr) : EncodedHead.Statement i :=
  match i with
  | .loadWord reg addr => EncodedHead.loadWord reg addr
  | .storeWord reg addr => EncodedHead.storeWord reg addr
  | .add regA regB => EncodedHead.add regA regB
  | .sub regA regB => EncodedHead.sub regA regB
  | .jmp addr => EncodedHead.jmp addr
  | .je addr => EncodedHead.je addr
  | .addi reg imm => EncodedHead.addi reg imm
  | .halt => EncodedHead.halt

theorem encode_eq_cons (i : Instr) : encode i = i.opcode.byte :: operandBytes i :=
  (List.cons_head?_tail (encodedHead i).1).symm

theorem encode_length (i : Instr) : (encode i).length = i.length := (encodedHead i).2

theorem instr_length_pos (i : Instr) : 0 < i.length := by
  rw [← encode_length, encode_eq_cons]
  exact Nat.succ_pos _

/-- The operand bytes of an instruction decode, under its opcode, to the instruction (R61). -/
theorem decodeOperands_operandBytes (i : Instr) (rest : List Byte) :
    decodeOperands i.opcode (operandBytes i ++ rest) = .ok (i, rest) := by
  cases i with
  | loadWord reg addr | storeWord reg addr => exact decodeRA_code _ _ reg addr rest
  | add regA regB | sub regA regB => exact decodeRR_code _ _ regA regB rest
  | jmp addr | je addr | halt => rfl
  | addi reg imm => exact decodeRI_code _ _ reg imm rest

/-- Operand bytes that decode under an opcode are those of an instruction with that opcode (R69). -/
theorem decodeOperands_ok {o : Opcode} {bs rest : List Byte} {i : Instr} (h : decodeOperands o bs = .ok (i, rest)) :
    o = i.opcode ∧ bs = operandBytes i ++ rest := by
  cases o with
  | loadWord | storeWord => obtain ⟨reg, addr, rfl, rfl⟩ := decodeRA_ok h; exact ⟨rfl, rfl⟩
  | add | sub => obtain ⟨regA, regB, rfl, rfl⟩ := decodeRR_ok h; exact ⟨rfl, rfl⟩
  | jmp | je => obtain ⟨addr, rfl, rfl⟩ := decodeA_ok h; exact ⟨rfl, rfl⟩
  | addi => obtain ⟨reg, imm, rfl, rfl⟩ := decodeRI_ok h; exact ⟨rfl, rfl⟩
  | halt => cases h; exact ⟨rfl, rfl⟩

end Sys2Proof.Proofs
end

section
/-! Decode and encode agree (O1, O2), the opcode map (O3) and the immediate (O4). -/

namespace Sys2Proof.Proofs

open Sys2Proof.Machine Sys2Proof.Laws

/-- Settles O1: the opcode byte selects the instruction's own operand format, which reads its operands back. -/
theorem decodeEncodeRoundTrip : Obligations.DecodeEncodeRoundTrip := by
  intro i rest
  rw [encode_eq_cons, List.cons_append, decode_of_ofByte_some (ofByte_byte _), decodeOperands_operandBytes]

/-- Settles O2: the opcode byte is the whole first byte, and each format accepts only the bytes it spells. -/
theorem decodedBytesAreTheEncoding : Obligations.DecodedBytesAreTheEncoding := by
  intro bs rest i h
  cases bs with
  | nil => cases h
  | cons opc operands =>
    cases ho : Opcode.ofByte opc with
    | none => rw [decode_of_ofByte_none ho] at h; cases h
    | some o =>
      rw [decode_of_ofByte_some ho] at h
      obtain ⟨rfl, rfl⟩ := decodeOperands_ok h
      rw [ofByte_eq_some ho, encode_eq_cons, List.cons_append]

/-- Settles O3: a byte stands for an opcode exactly when it is the opcode's byte, and the table lists that byte once for each
opcode. -/
theorem opcodeMapIsComplete : Obligations.OpcodeMapIsComplete := by
  intro b o
  rw [ofByte_eq_some_iff]
  cases o <;> simp [Opcode.byte]

/-- Settles O4: the bytes are the encoding of the ADDI whose immediate they assemble, so the round trip decodes them. -/
theorem immediateIsLowByteFirst : Obligations.ImmediateIsLowByteFirst := by
  refine ⟨fun reg immLow immHigh rest => ⟨assemble immLow immHigh, ?_, assemble_eq_append .., assemble_toNat ..⟩,
    rfl, rfl, rfl, rfl⟩
  have hbytes : encode (.addi reg (assemble immLow immHigh)) = [0x07#8, reg.code, immLow, immHigh] := by
    simp [encode, Opcode.byte]
  simpa [hbytes] using decodeEncodeRoundTrip (.addi reg (assemble immLow immHigh)) rest

end Sys2Proof.Proofs
end

section
/-! What the Step fetches at `ip`: an encoded instruction (O27) or an undefined opcode byte (O32). -/

namespace Sys2Proof.Proofs

open Sys2Proof.Machine Sys2Proof.Laws

/-- With `ip` in memory and no cap, the Step is fetch, decode and execute at `ip` (R80). -/
theorem step_eq_runAt {s : State} (hr : s.runState = .running) (hip : s.ip.toNat < 20) :
    step s = runAt s.ip.toNat s := by
  rw [step, stepWith_of_running hr, runningStep_of_lt hip]
  rfl

/-- Bytes that stand in memory from `a` on are what the loop reads first there (R60). -/
theorem window_eq_append {m : Memory} {bs : List Byte} : ∀ {a n : Nat}, a + bs.length ≤ 20 → bs.length ≤ n →
    (∀ k (h : k < bs.length), m.peek (a + k) = bs[k]) →
      m.window a n = bs ++ m.window (a + bs.length) (n - bs.length) := by
  induction bs with
  | nil => intros; rfl
  | cons b bs ih =>
    intro a n hfit hn hbytes
    rw [List.length_cons] at hfit hn
    obtain ⟨n, rfl⟩ : ∃ n', n = n' + 1 := ⟨n - 1, by omega⟩
    have hhead : m.peek a = b := hbytes 0 (by simp)
    have htail : ∀ k (h : k < bs.length), m.peek (a + 1 + k) = bs[k] := by
      intro k h
      rw [Nat.add_right_comm]
      exact hbytes (k + 1) (Nat.succ_lt_succ h)
    rw [window_succ_of_lt (by omega), hhead, ih (by omega) (by omega) htail]
    simp [Nat.add_assoc, Nat.add_comm 1 bs.length]

/-- An encoding that stands in memory at `p` is fetched and decoded there (R60, R73). -/
theorem fetchDecode_of_encoded {m : Memory} {p : Nat} {i : Instr} (hfit : p + i.length ≤ 20)
    (hbytes : ∀ k (h : k < (encode i).length), m.peek (p + k) = (encode i)[k]) :
    ∃ rest, fetchDecode m p = .ok (i, rest) := by
  have hlen := encode_length i
  have hfour : i.length ≤ 4 := length_le_four i.opcode
  have hwindow := window_eq_append (n := 4) (by omega) (by omega) hbytes
  exact ⟨_, (congrArg decode hwindow).trans (decodeEncodeRoundTrip i _)⟩

/-- Settles O27: the loop reads the encoding first, and decoding it gives the instruction back. -/
theorem stepRunsTheEncodedInstruction : Obligations.StepRunsTheEncodedInstruction := by
  intro s i hr hwf hbytes
  have hfit : s.ip.toNat + i.length ≤ 20 := of_decide_eq_true hwf
  have hpos := instr_length_pos i
  obtain ⟨rest, hd⟩ := fetchDecode_of_encoded hfit hbytes
  rw [step_eq_runAt hr (by omega), runAt_of_ok hd]

/-- An undefined opcode byte at `ip` takes IllegalInstruction, reporting the byte and `ip` (R86). -/
theorem step_of_undefined_opcode {s : State} (hr : s.runState = .running) (hip : s.ip.toNat < 20)
    (hnone : Opcode.ofByte (s.mem.peek s.ip.toNat) = none) :
    step s = .next (raise (illegalRecord s.ip (s.mem.peek s.ip.toNat)) s) := by
  have hd : fetchDecode s.mem s.ip.toNat = .error (.illegalOpcode (s.mem.peek s.ip.toNat)) := by
    rw [fetchDecode_eq hip, decode_of_ofByte_none hnone]
  rw [step_eq_runAt hr hip, runAt_of_error hd, decodeFault, BitVec.ofNat_toNat, BitVec.setWidth_eq]

/-- The undefined bytes of R67, as the rule lists them. -/
theorem ofByte_eq_none_iff_listed (b : Byte) :
    Opcode.ofByte b = none ↔ b = 0x00#8 ∨ (0x08 ≤ b.toNat ∧ b.toNat ≤ 0xFE) := by
  rw [ofByte_eq_none_iff, ← BitVec.toNat_inj]
  rfl

/-- The defined bytes are those of the opcode map's rows (R62). -/
theorem ofByte_ne_none_iff_mem (b : Byte) :
    Opcode.ofByte b ≠ none ↔ b ∈ [0x01#8, 0x02#8, 0x03#8, 0x04#8, 0x05#8, 0x06#8, 0x07#8, 0xFF#8] := by
  simp [Option.ne_none_iff_exists', opcodeMapIsComplete b, exists_or]

/-- Settles O32: the bytes named are those the opcode map does not hold, and fetching one of them is the fault. -/
theorem undefinedOpcodeIsIllegal : Obligations.UndefinedOpcodeIsIllegal := by
  constructor
  · intro s hr hip hb
    have hnone := (ofByte_eq_none_iff_listed _).mpr hb
    exact ⟨_, step_of_undefined_opcode hr (by omega) hnone, rfl, rfl, rfl, rfl⟩
  · intro b
    rw [← ofByte_eq_none_iff_listed]
    exact ofByte_ne_none_iff_mem b

end Sys2Proof.Proofs
end

section
/-! SUPPORT. What every executed instruction does to the parts of the state that are no data: it always completes, it leaves the
counter alone, and it ends the Run only as Halted or Faulted. -/

namespace Sys2Proof.Proofs

open Sys2Proof.Machine Sys2Proof.Laws

/-- Every instruction answers a next state (log entry 7). -/
theorem exec_completes (i : Instr) (s : State) : ∃ t, exec i s = .next t := by
  cases i with
  | loadWord reg addr =>
    by_cases ha : addr.toNat + 1 < 20
    · exact ⟨_, execLoadWord_of_lt ha reg s⟩
    · exact ⟨_, execLoadWord_of_ge (Nat.le_of_not_lt ha) reg s⟩
  | storeWord reg addr =>
    by_cases ha : addr.toNat + 1 < 20
    · obtain ⟨_, -, h⟩ := execStoreWord_of_lt ha reg s
      exact ⟨_, h⟩
    · exact ⟨_, execStoreWord_of_ge (Nat.le_of_not_lt ha) reg s⟩
  | je addr =>
    by_cases hr : s.r1 = s.r2
    · exact ⟨_, execJe_of_eq hr addr⟩
    · exact ⟨_, execJe_of_ne hr addr⟩
  | add | sub | jmp | addi | halt => exact ⟨_, rfl⟩

@[simp] theorem transfer_steps (o : Opcode) (addr : Byte) (s : State) : (transfer o addr s).steps = s.steps := by
  obtain ⟨-, h⟩ | ⟨-, h⟩ := transfer_cases o addr s <;> simp [h]

theorem transfer_runState (o : Opcode) (addr : Byte) (s : State) :
    (transfer o addr s).runState = s.runState ∨ (transfer o addr s).runState = .faulted := by
  obtain ⟨-, h⟩ | ⟨-, h⟩ := transfer_cases o addr s <;> simp [h]

/-- No instruction counts (R95). -/
theorem exec_steps {i : Instr} {s t : State} (h : exec i s = .next t) : t.steps = s.steps := by
  cases exec_path h with
  | loaded | loadFault | stored | storeFault | added | subtracted | jumped | jumpedEqual | fellThrough | addedImmediate
  | halted => simp

/-- An instruction leaves the run state alone, takes a fault, or is HALT (R140, R176). -/
theorem exec_runState {i : Instr} {s t : State} (h : exec i s = .next t) :
    t.runState = s.runState ∨ t.runState = .faulted ∨ (i = .halt ∧ t.runState = .halted) := by
  cases exec_path h with
  | loaded | added | subtracted | addedImmediate | stored | fellThrough => left; simp
  | loadFault | storeFault => exact .inr (.inl rfl)
  | jumped addr | jumpedEqual addr => exact (transfer_runState _ addr s).imp_right .inl
  | halted => exact .inr (.inr ⟨rfl, rfl⟩)

end Sys2Proof.Proofs
end

section
/-! The Step of a Running state, path by path: the decoded instruction (O26), Exhaustion (O29), HALT (O31), totality (O36). -/

namespace Sys2Proof.Proofs

open Sys2Proof.Machine Sys2Proof.Laws

/-- Settles O26: with `ip` in memory the Step is the fetch at `ip`, and the bytes it reads decode to the instruction. -/
theorem stepRunsTheDecodedInstruction : Obligations.StepRunsTheDecodedInstruction := by
  intro s i rest hr hip hd
  rw [step_eq_runAt hr (by omega), runAt_of_ok hd]

theorem step_of_ge {s : State} (hr : s.runState = .running) (hip : 20 ≤ s16 s.ip) : step s = .next (exhaust s) := by
  rw [step, stepWith_of_running hr, runningStep_of_ge hip]

theorem step_of_neg {s : State} (hr : s.runState = .running) (hip : s16 s.ip < 0) :
    step s = .next (raise (outOfBoundsRecord s.ip 0#8 .opcodeFetch) s) := by
  rw [step, stepWith_of_running hr, runningStep_of_neg hip]

/-- Settles O29: of the paths of a Step only Exhaustion ends Exhausted, and it is the one from a signed `ip` of 20 on. -/
theorem exhaustedExactlyFromTwenty : Obligations.ExhaustedExactlyFromTwenty := by
  intro s hr
  refine ⟨step_of_ge hr, fun t h hend => ?_⟩
  cases stepWith_cases hr h with
  | exhausted hip _ => exact hip
  | negative _ ht | capped _ _ ht | refusedBytes _ _ _ _ ht => simp [ht] at hend
  | executed _ _ i _ _ ht =>
    obtain hrun | hrun | ⟨-, hrun⟩ := exec_runState ht <;> simp [hrun, hr] at hend

/-- The first byte of the bytes that decode to an instruction is its opcode byte (R60). -/
theorem peek_of_fetchDecode {m : Memory} {p : Nat} (hp : p < 20) {i : Instr} {rest : List Byte}
    (h : fetchDecode m p = .ok (i, rest)) : m.peek p = i.opcode.byte := by
  rw [fetchDecode_eq hp] at h
  have hbytes := decodedBytesAreTheEncoding _ _ _ h
  rw [encode_eq_cons, List.cons_append] at hbytes
  exact (List.cons.inj hbytes).1

/-- At an opcode byte the loop decodes the bytes after it as the opcode's operands. -/
theorem fetchDecode_of_opcode {m : Memory} {p : Nat} (hp : p < 20) {o : Opcode} (h : m.peek p = o.byte) :
    fetchDecode m p = decodeOperands o (m.window (p + 1) 3) := by
  rw [fetchDecode_eq hp, decode_of_ofByte_some (h ▸ ofByte_byte o)]

/-- The byte 0xFF fetched as an opcode halts (R85, R141). -/
theorem step_of_haltByte {s : State} (hr : s.runState = .running) (hip : s.ip.toNat < 20)
    (hb : s.mem.peek s.ip.toNat = Opcode.byte .halt) : step s = .next (halt s) := by
  have hd : fetchDecode s.mem s.ip.toNat = .ok (.halt, s.mem.window (s.ip.toNat + 1) 3) := fetchDecode_of_opcode hip hb
  rw [step_eq_runAt hr hip, runAt_of_ok hd]
  rfl

/-- Settles O31: only an executed HALT ends Halted, and an instruction decoded at `ip` is HALT exactly when the byte there is
0xFF. -/
theorem haltedExactlyOnHaltByte : Obligations.HaltedExactlyOnHaltByte := by
  intro s t hr h
  constructor
  · intro hend
    cases stepWith_cases hr h with
    | exhausted _ ht | negative _ ht | capped _ _ ht | refusedBytes _ _ _ _ ht => simp [ht] at hend
    | executed hip _ i rest hd ht =>
      obtain hrun | hrun | ⟨rfl, -⟩ := exec_runState ht
      · simp [hrun, hr] at hend
      · simp [hrun] at hend
      · exact ⟨by omega, peek_of_fetchDecode hip hd⟩
  · rintro ⟨hip, hb⟩
    rw [step_of_haltByte hr (by omega) hb] at h
    cases h
    rfl

theorem runAt_completes (p : Nat) (s : State) : ∃ t, runAt p s = .next t := by
  cases hd : fetchDecode s.mem p with
  | error e => exact ⟨_, runAt_of_error hd⟩
  | ok q =>
    rw [runAt_of_ok (rest := q.2) hd]
    exact exec_completes q.1 s

/-- Settles O36: each path of a Step ends in a next state, since fetching answers an instruction or a fault and every
instruction completes. -/
theorem everyStepAnswersANextState : Obligations.EveryStepAnswersANextState := by
  intro limit s
  by_cases hr : s.runState = .running
  · rw [stepWith_of_running hr]
    simp only [runningStep]
    split_ifs
    · exact ⟨_, rfl⟩
    · exact ⟨_, rfl⟩
    · exact ⟨_, rfl⟩
    · exact runAt_completes _ _
  · exact ⟨s, stepWith_of_terminal hr⟩

end Sys2Proof.Proofs
end

section
/-! How `ip` moves: control transfers (O18) and the advance (O22). -/

namespace Sys2Proof.Proofs

open Sys2Proof.Machine Sys2Proof.Laws

/-- The effective address has the operand as its low byte and a zero high byte (R65). -/
theorem effectiveAddress_eq_append (addr : Byte) : effectiveAddress addr = (0#8 ++ addr : BitVec 16) := by
  apply BitVec.eq_of_toNat_eq
  rw [effectiveAddress_toNat, BitVec.toNat_append]
  simp

/-- Settles O18: a transfer to an address of memory sets `ip` to the effective address of its operand, and HALT touches the run
state only. -/
theorem transfersLandOnTheTarget : Obligations.TransfersLandOnTheTarget := by
  refine ⟨fun addr s ha t ht => ?_, fun s => ⟨halt s, rfl, rfl⟩⟩
  have hland (o : Opcode) : transfer o addr s = { s with ip := t } := by
    rw [transfer_of_le (by omega), effectiveAddress_eq_append, ht]
  exact ⟨congrArg _ (hland .jmp), fun heq => (execJe_of_eq heq addr).trans (congrArg _ (hland .je))⟩

/-- Only a write that names `ip` moves it (R92). -/
theorem setReg_ip (reg : Reg) (v : Word) (s : State) : (setReg reg v s).ip = if reg = .ip then v else s.ip := by
  cases reg <;> rfl

/-- Settles O22: each of these instructions ends with the advance by its opcode's length, after an effect that moves `ip` only
where it writes the register `ip`. -/
theorem advanceAddsTheLength : Obligations.AdvanceAddsTheLength := by
  intro reg regB addr imm s
  refine ⟨fun ha => ?_, fun ha => ?_, ⟨_, rfl, rfl⟩, ⟨_, rfl, rfl⟩, ⟨_, rfl, ?_⟩, fun hne => ?_⟩
  · refine ⟨_, _, execLoadWord_of_lt (by omega) reg s, readWord_eq_some.mpr ⟨by omega, rfl⟩, ?_⟩
    rw [advance_ip, setReg_ip]
    rfl
  · obtain ⟨m, -, h⟩ := execStoreWord_of_lt (addr := addr) (by omega) reg s
    exact ⟨_, h, rfl⟩
  · cases reg <;> rfl
  · exact ⟨_, execJe_of_ne hne addr, rfl⟩

end Sys2Proof.Proofs
end

section
/-! Runs: the invariant (O46), states that stay (O47) and the jump to itself (O48). -/

namespace Sys2Proof.Proofs

open Sys2Proof.Machine Sys2Proof.Laws

/-- The reset with any image meets the invariant (R33, R200). -/
theorem inv_resetWith (image : Image) (s : State) : Inv (resetWith image s) where
  mem_wf := wf_ofImage image
  fault_allowed := resetMeetsTheInvariant.fault_allowed
  fault_iff := resetMeetsTheInvariant.fault_iff

/-- The invariant holds along every Run from a state that meets it. -/
theorem inv_of_reaches {s t : State} (hs : Inv s) (h : Reaches s t) : Inv t := by
  induction h with
  | refl => exact hs
  | tail _ hstep ih => exact inv_stepWith ih hstep

/-- Settles O46: the reset meets the invariant and every Step keeps it. -/
theorem reachedStatesMeetTheInvariant : Obligations.ReachedStatesMeetTheInvariant :=
  fun image s _ h => inv_of_reaches (inv_resetWith image s) h

theorem runWith_succ {limit : Option Nat} {s t : State} (h : stepWith limit s = .next t) (n : Nat) :
    runWith limit (n + 1) s = runWith limit n t := by
  simp only [runWith, h]

/-- A state that one Step leaves as it is stays for any number of Steps. -/
theorem runWith_of_fixed {limit : Option Nat} {s : State} (h : stepWith limit s = .next s) (n : Nat) :
    runWith limit n s = .next s := by
  induction n with
  | zero => rfl
  | succ n ih => rw [runWith_succ h, ih]

/-- Settles O47: a Step leaves a terminal state as it is. -/
theorem terminalStatesStay : Obligations.TerminalStatesStay :=
  fun _ _ n h => runWith_of_fixed (stepWith_of_terminal h) n

/-- A JMP whose target is its own address leaves every field as it is (R97, R127). -/
theorem exec_jmp_self {addr : Byte} {s : State} (hip : s.ip.toNat < 20) (h : addr.toNat = s.ip.toNat) :
    exec (.jmp addr) s = .next s := by
  have htarget : effectiveAddress addr = s.ip := BitVec.eq_of_toNat_eq ((effectiveAddress_toNat addr).trans h)
  have hstay : transfer .jmp addr s = s := by rw [transfer_of_le (by omega), htarget]
  exact congrArg _ hstay

/-- Settles O48: the JMP standing at `ip` is what the Step runs, and it answers the same state. -/
theorem jumpToItselfNeverEnds : Obligations.JumpToItselfNeverEnds := by
  intro s n hr hip hopc hself
  generalize haddr : s.mem.peek (s.ip.toNat + 1) = addr at hself
  have hbytes : ∀ k (h : k < (encode (.jmp addr)).length), s.mem.peek (s.ip.toNat + k) = (encode (.jmp addr))[k]
    | 0, _ => hopc
    | 1, _ => haddr
  have hfits : Instr.wellFormedAt (.jmp addr) s.ip.toNat = true := decide_eq_true (Nat.add_le_add_right hip 2)
  have hstep : step s = .next s :=
    (stepRunsTheEncodedInstruction s _ hr hfits hbytes).trans (exec_jmp_self (by omega) hself)
  exact runWith_of_fixed hstep n

end Sys2Proof.Proofs
end

section
/-! The cap of R95: where it stops (O49), what the counter counts (O51), that a capped Run ends (O50) and that the cap changes
nothing else (O52). -/

namespace Sys2Proof.Proofs

open Sys2Proof.Machine Sys2Proof.Laws

theorem atStepLimit_some (n : Nat) (s : State) : atStepLimit (some n) s = true ↔ s.steps = n := decide_eq_true_iff

/-- Settles O49: `ip` is in memory and the cap is reached, so the Step ends the Run before it fetches. -/
theorem capStopsTheFetch : Obligations.CapStopsTheFetch := by
  intro n s hr hip hn
  rw [stepWith_of_running hr, runningStep_of_lt (by omega), if_pos ((atStepLimit_some n s).mpr hn)]
  rfl

/-- With the cap `n` this state's next Step fetches an opcode (R95). -/
def Fetches (n : Nat) (s : State) : Prop := s.runState = .running ∧ s.ip.toNat ≤ 19 ∧ s.steps ≠ n

theorem not_fetches_of_ip_outside {n : Nat} {s : State} (hip : 20 ≤ s16 s.ip ∨ s16 s.ip < 0) : ¬ Fetches n s := by
  rintro ⟨-, hmem, -⟩
  have hs16 := s16_of_toNat_lt (v := s.ip) (by omega)
  omega

theorem fetches_of_below_cap {n : Nat} {s : State} (hr : s.runState = .running) (hip : s.ip.toNat < 20)
    (hn : atStepLimit (some n) s = false) : Fetches n s :=
  ⟨hr, Nat.le_of_lt_succ hip, of_decide_eq_false hn⟩

/-- A Step of a capped machine fetches and counts, or it does not count and leaves a state that is not Running. -/
theorem stepWith_counts_or_ends {n : Nat} {s t : State} (h : stepWith (some n) s = .next t) :
    (Fetches n s ∧ t.steps = s.steps + 1) ∨ (¬ Fetches n s ∧ t.steps = s.steps ∧ t.runState ≠ .running) := by
  by_cases hr : s.runState = .running
  · cases stepWith_cases hr h with
    | exhausted hip ht => exact .inr ⟨not_fetches_of_ip_outside (.inl hip), by simp [ht], by simp [ht]⟩
    | negative hip ht => exact .inr ⟨not_fetches_of_ip_outside (.inr hip), by simp [ht], by simp [ht]⟩
    | capped _ hn ht => exact .inr ⟨fun ⟨_, _, hne⟩ => hne ((atStepLimit_some n s).mp hn), by simp [ht], by simp [ht]⟩
    | refusedBytes hip hn _ _ ht => exact .inl ⟨fetches_of_below_cap hr hip hn, by simp [ht]⟩
    | executed hip hn _ _ _ ht => exact .inl ⟨fetches_of_below_cap hr hip hn, exec_steps ht⟩
  · rw [stepWith_of_terminal hr] at h
    cases h
    exact .inr ⟨fun ⟨hrun, _, _⟩ => hr hrun, rfl, hr⟩

/-- Settles O51: a fetching Step starts below the cap and adds 1, any other Step adds nothing. -/
theorem counterNeverPassesTheCap : Obligations.CounterNeverPassesTheCap := by
  intro n s t hle h
  obtain ⟨hf, hsteps⟩ | ⟨hf, hsteps, -⟩ := stepWith_counts_or_ends h
  · have ⟨_, _, hne⟩ := hf
    exact ⟨by omega, iff_of_true hsteps hf, .inr hsteps⟩
  · exact ⟨by omega, iff_of_false (by omega) hf, .inl hsteps⟩

/-- A capped Run from a counter `k` below the cap has ended after `k + 1` Steps. -/
theorem runWith_ends {n : Nat} (k : Nat) : ∀ s : State, s.steps + k = n →
    ∃ t, runWith (some n) (k + 1) s = .next t ∧ t.runState ≠ .running := by
  induction k with
  | zero =>
    intro s hk
    obtain ⟨t, h⟩ := everyStepAnswersANextState (some n) s
    obtain ⟨⟨-, -, hne⟩, -⟩ | ⟨-, -, hend⟩ := stepWith_counts_or_ends h
    · exact absurd hk hne
    · exact ⟨t, runWith_succ h 0, hend⟩
  | succ k ih =>
    intro s hk
    obtain ⟨t, h⟩ := everyStepAnswersANextState (some n) s
    rw [runWith_succ h]
    obtain ⟨-, hsteps⟩ | ⟨-, -, hend⟩ := stepWith_counts_or_ends h
    · exact ih t (by omega)
    · exact ⟨t, terminalStatesStay _ t _ hend, hend⟩

/-- Settles O50: every Step that leaves the state Running counts, and the cap leaves room for `n - steps` of them. -/
theorem cappedRunEnds : Obligations.CappedRunEnds :=
  fun n s h => runWith_ends (n - s.steps) s (by omega)

/-- The state with this counter. -/
def withSteps (k : Nat) (s : State) : State := { s with steps := k }

section WithSteps

variable (k : Nat) (s : State)

theorem getReg_withSteps (reg : Reg) : getReg reg (withSteps k s) = getReg reg s := by cases reg <;> rfl

theorem setReg_withSteps (reg : Reg) (v : Word) : setReg reg v (withSteps k s) = withSteps k (setReg reg v s) := by
  cases reg <;> rfl

theorem advance_withSteps (o : Opcode) : advance o (withSteps k s) = withSteps k (advance o s) := rfl

theorem raise_withSteps (rec : FaultRecord) : raise rec (withSteps k s) = withSteps k (raise rec s) := rfl

theorem transfer_withSteps (o : Opcode) (addr : Byte) :
    transfer o addr (withSteps k s) = withSteps k (transfer o addr s) := by
  by_cases ha : addr.toNat < 20
  · rw [transfer_of_le ha, transfer_of_le ha]
    rfl
  · rw [transfer_of_ge (by omega), transfer_of_ge (by omega), raise_withSteps]

end WithSteps

/-- No instruction reads the counter or writes it: it does the same whatever the counter is (log entry 5). -/
theorem exec_withSteps {i : Instr} {s t : State} (k : Nat) (h : exec i s = .next t) :
    exec i (withSteps k s) = .next (withSteps k t) := by
  cases exec_path h with
  | loaded reg addr hlt =>
    rw [← advance_withSteps, ← setReg_withSteps]
    exact execLoadWord_of_lt hlt reg (withSteps k s)
  | loadFault reg addr hge => exact execLoadWord_of_ge hge reg (withSteps k s)
  | stored reg addr m hlt hm =>
    obtain ⟨m', hm', he⟩ := execStoreWord_of_lt hlt reg (withSteps k s)
    rw [getReg_withSteps] at hm'
    obtain rfl : m' = m := Option.some.inj (hm'.symm.trans hm)
    exact he
  | storeFault reg addr hge => exact execStoreWord_of_ge hge reg (withSteps k s)
  | added regA regB | subtracted regA regB =>
    rw [← advance_withSteps, ← setReg_withSteps, ← getReg_withSteps k s regA, ← getReg_withSteps k s regB]
    rfl
  | addedImmediate reg imm =>
    rw [← advance_withSteps, ← setReg_withSteps, ← getReg_withSteps k s reg]
    rfl
  | jumped addr => exact congrArg _ (transfer_withSteps k s .jmp addr)
  | jumpedEqual addr heq =>
    exact (execJe_of_eq (s := withSteps k s) heq addr).trans (congrArg _ (transfer_withSteps k s .je addr))
  | fellThrough addr hne => exact execJe_of_ne (s := withSteps k s) hne addr
  | halted => rfl

/-- Settles O52: both machines take the same path, and past the fetch they run the same instruction, or take the same fault, in
states that differ in the counter only. -/
theorem capChangesOnlyTheCounter : Obligations.CapChangesOnlyTheCounter := by
  intro n s t h hend
  by_cases hr : s.runState = .running
  · cases stepWith_cases hr h with
    | exhausted hip ht => rw [step_of_ge hr hip, ht]; rfl
    | negative hip ht => rw [step_of_neg hr hip, ht]; rfl
    | capped _ _ ht => exact absurd (by simp [ht]) hend
    | refusedBytes hip _ e he ht => rw [step_eq_runAt hr hip, runAt_of_error he, ht]; rfl
    | executed hip _ i _ hd ht =>
      rw [step_eq_runAt hr hip, runAt_of_ok hd]
      have hexec := exec_withSteps s.steps ht
      exact hexec
  · rw [stepWith_of_terminal hr] at h
    cases h
    exact stepWith_of_terminal hr

end Sys2Proof.Proofs
end

section
/-! SUPPORT. The decoder on the operand bytes of an opcode: one of them is missing, a register byte names no slot, or they spell
an instruction (R80 steps (f) and (g)). -/

namespace Sys2Proof.Proofs

open Sys2Proof.Machine Sys2Proof.Laws

/-- With too few operand bytes, the one after the last is missing (R87). -/
theorem decodeOperands_of_short {o : Opcode} {bs : List Byte} (h : bs.length + 1 < o.length) :
    decodeOperands o bs = .error (.missingOperand o.byte (bs.length + 1)) := by
  cases hd : decodeOperands o bs with
  | ok q =>
    obtain ⟨i, rest⟩ := q
    obtain ⟨rfl, rfl⟩ := decodeOperands_ok hd
    have hlen : (encode i).length = i.opcode.length := encode_length i
    rw [encode_eq_cons, List.length_cons] at hlen
    rw [List.length_append] at h
    omega
  | error e =>
    cases decodeOperands_error hd with
    | missing => rfl
    | badRegister _ hlen => omega

/-- A register byte is the code of a slot, or one that step (g) rejects (R64, R88). -/
theorem code_or_rejected (b : Byte) : (∃ r : Reg, b = r.code) ∨ (Reg.ofCode b = none ∧ 2 < b.toNat) := by
  cases h : Reg.ofCode b with
  | none => exact .inr ⟨rfl, (ofCode_eq_none_iff b).mp h⟩
  | some r => exact .inl ⟨r, ofCode_eq_some h⟩

theorem code_toNat_le (r : Reg) : r.code.toNat ≤ 2 := by cases r <;> decide

/-! ### Step (g) of the transcription, by format -/

theorem literalBadRegister_a {o : Opcode} (h : o.format = .a) (b1 b2 : Byte) :
    literalBadRegister o.byte.toNat b1 b2 = false := by
  cases o <;> cases h <;> rfl

theorem literalBadRegister_ra {o : Opcode} (h : o.format = .ra) (b1 b2 : Byte) :
    literalBadRegister o.byte.toNat b1 b2 = decide (2 < b1.toNat) := by
  cases o <;> cases h <;> simp [literalBadRegister, Opcode.byte]

theorem literalBadRegister_rr {o : Opcode} (h : o.format = .rr) (b1 b2 : Byte) :
    literalBadRegister o.byte.toNat b1 b2 = decide (2 < b1.toNat ∨ 2 < b2.toNat) := by
  cases o <;> cases h <;> simp [literalBadRegister, Opcode.byte]

theorem literalBadRegister_ri {o : Opcode} (h : o.format = .ri) (b1 b2 : Byte) :
    literalBadRegister o.byte.toNat b1 b2 = decide (2 < b1.toNat) := by
  cases o <;> cases h
  simp [literalBadRegister, Opcode.byte]

/-! ### The operand bytes when all of them are in memory -/

/-- Of the three bytes after an opcode byte, those that are its operands (R61). -/
def operandsOf (o : Opcode) (b1 b2 b3 : Byte) : List Byte := [b1, b2, b3].take (o.length - 1)

/-- What decoding all operand bytes answers: step (g) rejects them, or they are the operand bytes of an instruction. -/
inductive OperandStage (o : Opcode) (b1 b2 b3 : Byte) : Decoded → Prop where
  | rejected (hbad : literalBadRegister o.byte.toNat b1 b2 = true) :
      OperandStage o b1 b2 b3 (.error (.badRegister o.byte))
  | spelled (i : Instr) (rest : List Byte) (ho : i.opcode = o) (hbytes : operandBytes i = operandsOf o b1 b2 b3)
      (hgood : literalBadRegister o.byte.toNat b1 b2 = false) : OperandStage o b1 b2 b3 (.ok (i, rest))

section Formats

variable {o : Opcode} (b1 b2 b3 : Byte) (rest : List Byte)

theorem operandStage_a (hf : o.format = .a) {mk : Byte → Instr}
    (hmk : ∀ addr, (mk addr).opcode = o ∧ operandBytes (mk addr) = [addr]) :
    OperandStage o b1 b2 b3 (decodeA o mk (b1 :: rest)) := by
  obtain ⟨ho, hbytes⟩ := hmk b1
  exact .spelled _ rest ho (by simp [hbytes, operandsOf, Opcode.length, hf, Format.length])
    (literalBadRegister_a hf b1 b2)

theorem operandStage_ra (hf : o.format = .ra) {mk : Reg → Byte → Instr}
    (hmk : ∀ reg addr, (mk reg addr).opcode = o ∧ operandBytes (mk reg addr) = [reg.code, addr]) :
    OperandStage o b1 b2 b3 (decodeRA o mk (b1 :: b2 :: rest)) := by
  obtain ⟨reg, rfl⟩ | ⟨hnone, hbad⟩ := code_or_rejected b1
  · obtain ⟨ho, hbytes⟩ := hmk reg b2
    rw [decodeRA_code]
    exact .spelled _ rest ho (by simp [hbytes, operandsOf, Opcode.length, hf, Format.length])
      (by simp [literalBadRegister_ra hf, code_toNat_le])
  · simp only [decodeRA, hnone]
    exact .rejected (by simp [literalBadRegister_ra hf, hbad])

theorem operandStage_rr (hf : o.format = .rr) {mk : Reg → Reg → Instr}
    (hmk : ∀ regA regB, (mk regA regB).opcode = o ∧ operandBytes (mk regA regB) = [regA.code, regB.code]) :
    OperandStage o b1 b2 b3 (decodeRR o mk (b1 :: b2 :: rest)) := by
  obtain ⟨regA, rfl⟩ | ⟨hnone, hbad⟩ := code_or_rejected b1
  · obtain ⟨regB, rfl⟩ | ⟨hnone, hbad⟩ := code_or_rejected b2
    · obtain ⟨ho, hbytes⟩ := hmk regA regB
      rw [decodeRR_code]
      exact .spelled _ rest ho (by simp [hbytes, operandsOf, Opcode.length, hf, Format.length])
        (by simp [literalBadRegister_rr hf, code_toNat_le])
    · simp only [decodeRR, ofCode_code, hnone]
      exact .rejected (by simp [literalBadRegister_rr hf, hbad])
  · simp only [decodeRR, hnone]
    exact .rejected (by simp [literalBadRegister_rr hf, hbad])

theorem operandStage_ri (hf : o.format = .ri) {mk : Reg → Word → Instr}
    (hmk : ∀ reg imm, (mk reg imm).opcode = o ∧ operandBytes (mk reg imm) = [reg.code, lowByte imm, highByte imm]) :
    OperandStage o b1 b2 b3 (decodeRI o mk (b1 :: b2 :: b3 :: rest)) := by
  obtain ⟨reg, rfl⟩ | ⟨hnone, hbad⟩ := code_or_rejected b1
  · obtain ⟨ho, hbytes⟩ := hmk reg (assemble b2 b3)
    simp only [decodeRI, ofCode_code]
    exact .spelled _ rest ho (by simp [hbytes, operandsOf, Opcode.length, hf, Format.length])
      (by simp [literalBadRegister_ri hf, code_toNat_le])
  · simp only [decodeRI, hnone]
    exact .rejected (by simp [literalBadRegister_ri hf, hbad])

end Formats

theorem operandStage {o : Opcode} (hne : o ≠ .halt) (b1 b2 b3 : Byte) (rest : List Byte) :
    OperandStage o b1 b2 b3 (decodeOperands o (operandsOf o b1 b2 b3 ++ rest)) := by
  cases o with
  | loadWord | storeWord => exact operandStage_ra b1 b2 b3 rest rfl fun _ _ => ⟨rfl, rfl⟩
  | add | sub => exact operandStage_rr b1 b2 b3 rest rfl fun _ _ => ⟨rfl, rfl⟩
  | jmp | je => exact operandStage_a b1 b2 b3 rest rfl fun _ => ⟨rfl, rfl⟩
  | addi => exact operandStage_ri b1 b2 b3 rest rfl fun _ _ => ⟨rfl, rfl⟩
  | halt => exact absurd rfl hne

end Sys2Proof.Proofs
end

section
/-! SUPPORT. Step (h) of R80: each instruction's meaning is the pseudocode of its rule on the operand bytes. -/

namespace Sys2Proof.Proofs

open Sys2Proof.Machine Sys2Proof.Laws

@[simp] theorem slot_code (s : State) (r : Reg) : slot s r.code = getReg r s := by cases r <;> rfl

@[simp] theorem setSlot_code (s : State) (r : Reg) (v : Word) : setSlot s r.code v = setReg r v s := by
  cases r <;> rfl

theorem execLoadWord_eq_literalExecute (reg : Reg) (addr b3 : Byte) (s : State) :
    execLoadWord reg addr s = .next (literalExecute s 1 reg.code addr b3) := by
  by_cases ha : addr.toNat + 1 < 20
  · have h18 : ¬ addr.toNat > 18 := by omega
    simp only [execLoadWord_of_lt ha, literalExecute, if_neg h18, setSlot_code, assemble_eq_append]
    rfl
  · have h18 : addr.toNat > 18 := by omega
    simp only [execLoadWord_of_ge (Nat.le_of_not_lt ha), literalExecute, if_pos h18]
    rfl

theorem execStoreWord_eq_literalExecute (reg : Reg) (addr b3 : Byte) (s : State) :
    execStoreWord reg addr s = .next (literalExecute s 2 reg.code addr b3) := by
  by_cases ha : addr.toNat + 1 < 20
  · have h18 : ¬ addr.toNat > 18 := by omega
    obtain ⟨m, hm, he⟩ := execStoreWord_of_lt ha reg s
    rw [Memory.writeWord, if_pos ha, Option.some_inj] at hm
    simp only [he, ← hm, literalExecute, if_neg h18, slot_code, lowByte_eq_setWidth, highByte_eq_extractLsb']
    rfl
  · have h18 : addr.toNat > 18 := by omega
    simp only [execStoreWord_of_ge (Nat.le_of_not_lt ha), literalExecute, if_pos h18]
    rfl

/-- The target check of R125 and R126, as their pseudocode writes it. -/
theorem transfer_eq_literal (o : Opcode) (addr : Byte) (s : State) :
    transfer o addr s =
      if addr.toNat > 19 then literalRaise s .outOfBounds (addr.setWidth 16) o.byte .jumpTarget
      else { s with ip := addr.setWidth 16 } := by
  obtain ⟨hlt, h⟩ | ⟨hge, h⟩ := transfer_cases o addr s
  · rw [h, if_neg (by omega)]
    rfl
  · rw [h, if_pos (by omega)]
    rfl

theorem execJmp_eq_literalExecute (addr b2 b3 : Byte) (s : State) :
    execJmp addr s = .next (literalExecute s 5 addr b2 b3) :=
  congrArg _ (transfer_eq_literal .jmp addr s)

theorem execJe_eq_literalExecute (addr b2 b3 : Byte) (s : State) :
    execJe addr s = .next (literalExecute s 6 addr b2 b3) := by
  by_cases hr : s.r1 = s.r2
  · simp only [execJe_of_eq hr, transfer_eq_literal, literalExecute, if_pos hr]
    rfl
  · simp only [execJe_of_ne hr, literalExecute, if_neg hr]
    rfl

theorem execAdd_eq_literalExecute (regA regB : Reg) (b3 : Byte) (s : State) :
    execAdd regA regB s = .next (literalExecute s 3 regA.code regB.code b3) := by
  simp only [execAdd, literalExecute, slot_code]
  rfl

theorem execSub_eq_literalExecute (regA regB : Reg) (b3 : Byte) (s : State) :
    execSub regA regB s = .next (literalExecute s 4 regA.code regB.code b3) := by
  simp only [execSub, literalExecute, slot_code]
  rfl

theorem execAddi_eq_literalExecute (reg : Reg) (imm : Word) (s : State) :
    execAddi reg imm s = .next (literalExecute s 7 reg.code (lowByte imm) (highByte imm)) := by
  simp only [execAddi, literalExecute, slot_code, setSlot_code, ← assemble_eq_append, assemble_lowByte_highByte]
  rfl

/-- An instruction does what the pseudocode does with its opcode value and operand bytes. -/
theorem exec_eq_literalExecute {i : Instr} (hne : i.opcode ≠ .halt) {b1 b2 b3 : Byte}
    (hbytes : operandBytes i = operandsOf i.opcode b1 b2 b3) (s : State) :
    exec i s = .next (literalExecute s i.opcode.byte.toNat b1 b2 b3) := by
  cases i with
  | loadWord reg addr => cases hbytes; exact execLoadWord_eq_literalExecute reg _ b3 s
  | storeWord reg addr => cases hbytes; exact execStoreWord_eq_literalExecute reg _ b3 s
  | add regA regB => cases hbytes; exact execAdd_eq_literalExecute regA regB b3 s
  | sub regA regB => cases hbytes; exact execSub_eq_literalExecute regA regB b3 s
  | jmp addr => cases hbytes; exact execJmp_eq_literalExecute _ b2 b3 s
  | je addr => cases hbytes; exact execJe_eq_literalExecute _ b2 b3 s
  | addi reg imm => cases hbytes; exact execAddi_eq_literalExecute reg imm s
  | halt => exact absurd rfl hne

end Sys2Proof.Proofs
end

section
/-! The Step is the pseudocode of R80 (O28): both are cut into the same cases, in the rule's order. -/

namespace Sys2Proof.Proofs

open Sys2Proof.Machine Sys2Proof.Laws

/-- The transcription's lengths are those of R63. -/
theorem literalLength_byte {o : Opcode} (hne : o ≠ .halt) : literalLength o.byte.toNat = o.length := by
  cases o with
  | halt => exact absurd rfl hne
  | loadWord | storeWord | add | sub | jmp | je | addi => rfl

/-- Only HALT has no operand byte (R61). -/
theorem one_lt_length {o : Opcode} (hne : o ≠ .halt) : 1 < o.length := by
  cases o with
  | halt => exact absurd rfl hne
  | loadWord | storeWord | add | sub | jmp | je | addi => decide

/-! ### The cases of the transcription with `ip` in memory -/

section Transcription

variable {s : State} (hip : s.ip.toNat < 20)

include hip

theorem literalStep_of_undefined
    (hb : (s.mem.peek s.ip.toNat).toNat = 0 ∨ 8 ≤ (s.mem.peek s.ip.toNat).toNat ∧ (s.mem.peek s.ip.toNat).toNat ≤ 254) :
    literalStep s = literalRaise s .illegalInstruction s.ip (s.mem.peek s.ip.toNat) .none := by
  have hint : s.ip.toInt = s.ip.toNat := s16_of_toNat_lt hip
  simp only [literalStep, hint, Int.toNat_natCast]
  rw [if_neg (by omega), if_neg (by omega), if_neg (by omega), if_pos (by omega)]

theorem literalStep_of_haltByte (hb : s.mem.peek s.ip.toNat = Opcode.byte .halt) : literalStep s = halt s := by
  have hint : s.ip.toInt = s.ip.toNat := s16_of_toNat_lt hip
  simp only [literalStep, hint, Int.toNat_natCast]
  rw [if_neg (by omega), if_neg (by omega), hb]
  rfl

/-- Steps (f) to (h) of R80 for an opcode that has operands. -/
theorem literalStep_of_opcode {o : Opcode} (hne : o ≠ .halt) (ho : s.mem.peek s.ip.toNat = o.byte) :
    literalStep s =
      if 20 < s.ip.toNat + o.length then literalRaise s .outOfBounds 20#16 o.byte .operandFetch
      else if literalBadRegister o.byte.toNat (s.mem.peek (s.ip.toNat + 1)) (s.mem.peek (s.ip.toNat + 2)) then
        literalRaise s .illegalInstruction s.ip o.byte .none
      else
        literalExecute s o.byte.toNat (s.mem.peek (s.ip.toNat + 1)) (s.mem.peek (s.ip.toNat + 2))
          (s.mem.peek (s.ip.toNat + 3)) := by
  have hint : s.ip.toInt = s.ip.toNat := s16_of_toNat_lt hip
  have hlen := one_lt_length hne
  have hbyte := byte_le_seven_of_one_lt_length hlen
  have hend : (s.ip.toNat + o.length - 1 > 19) = (20 < s.ip.toNat + o.length) := propext (by omega)
  simp only [literalStep, hint, Int.toNat_natCast, ho, literalLength_byte hne, hend]
  rw [if_neg (by omega), if_neg (by omega), if_neg (by omega), if_neg (by omega)]

end Transcription

/-! ### The same cases of the Step -/

/-- An operand byte beyond memory takes OutOfBounds at 20 (R87). -/
theorem step_of_missing_operand {s : State} (hr : s.runState = .running) (hip : s.ip.toNat < 20) {o : Opcode}
    (ho : s.mem.peek s.ip.toNat = o.byte) (hend : 20 < s.ip.toNat + o.length) :
    step s = .next (raise (outOfBoundsRecord 20#16 o.byte .operandFetch) s) := by
  have hfour := length_le_four o
  have hwindow : (s.mem.window (s.ip.toNat + 1) 3).length = 19 - s.ip.toNat := by
    rw [window_length]
    omega
  have hd : fetchDecode s.mem s.ip.toNat = .error (.missingOperand o.byte (19 - s.ip.toNat + 1)) := by
    rw [fetchDecode_of_opcode hip ho, decodeOperands_of_short (by omega), hwindow]
  have haddr : s.ip.toNat + (19 - s.ip.toNat + 1) = 20 := by omega
  rw [step_eq_runAt hr hip, runAt_of_error hd, decodeFault, haddr]

/-- Where the instruction fits, the bytes fetched after the opcode begin with all its operand bytes (R60). -/
theorem window_operands {o : Opcode} {p : Nat} (hlen : 1 < o.length) (hfit : p + o.length ≤ 20) (m : Memory) :
    ∃ rest, m.window (p + 1) 3 = operandsOf o (m.peek (p + 1)) (m.peek (p + 2)) (m.peek (p + 3)) ++ rest := by
  have hfour := length_le_four o
  have hlength : (operandsOf o (m.peek (p + 1)) (m.peek (p + 2)) (m.peek (p + 3))).length = o.length - 1 := by
    rw [operandsOf, List.length_take]
    simp only [List.length_cons, List.length_nil]
    omega
  refine ⟨_, window_eq_append (by omega) (by omega) fun k hk => ?_⟩
  simp only [operandsOf, List.getElem_take]
  have hk3 : k < 3 := by omega
  match k, hk3 with
  | 0, _ | 1, _ | 2, _ => rfl

/-- With all operand bytes in memory, what the loop decodes is rejected by step (g) or an instruction with these bytes. -/
theorem fetchDecode_operandStage {o : Opcode} (hne : o ≠ .halt) {m : Memory} {p : Nat} (ho : m.peek p = o.byte)
    (hfit : p + o.length ≤ 20) :
    OperandStage o (m.peek (p + 1)) (m.peek (p + 2)) (m.peek (p + 3)) (fetchDecode m p) := by
  have hlen := one_lt_length hne
  obtain ⟨rest, hwindow⟩ := window_operands hlen hfit m
  rw [fetchDecode_of_opcode (by omega) ho, hwindow]
  exact operandStage hne _ _ _ rest

/-- With all operand bytes in memory, the Step rejects a register byte or executes (R80 steps (g) and (h)). -/
theorem step_of_operands {s : State} (hr : s.runState = .running) (hip : s.ip.toNat < 20) {o : Opcode} (hne : o ≠ .halt)
    (ho : s.mem.peek s.ip.toNat = o.byte) (hfit : s.ip.toNat + o.length ≤ 20) : step s = .next (literalStep s) := by
  have hstage := fetchDecode_operandStage hne ho hfit
  rw [step_eq_runAt hr hip, literalStep_of_opcode hip hne ho, if_neg (by omega)]
  generalize hd : fetchDecode s.mem s.ip.toNat = d at hstage
  cases hstage with
  | rejected hbad =>
    rw [runAt_of_error hd, if_pos hbad, decodeFault, BitVec.ofNat_toNat, BitVec.setWidth_eq]
    rfl
  | spelled i _ hi hbytes hgood =>
    subst hi
    rw [runAt_of_ok hd, exec_eq_literalExecute hne hbytes, hgood]
    rfl

/-- Settles O28: the two tests of `ip` and the opcode byte select the same case in both; an opcode with operands then misses one,
or step (g) rejects them, or they are the operands of the instruction that both execute. -/
theorem stepRefinesThePseudocode : Obligations.StepRefinesThePseudocode := by
  intro s hr
  by_cases h20 : 20 ≤ s16 s.ip
  · rw [step_of_ge hr h20, literalStep, if_pos h20]
    rfl
  by_cases h0 : s16 s.ip < 0
  · rw [step_of_neg hr h0, literalStep, if_neg h20, if_pos h0]
    rfl
  have hip : s.ip.toNat < 20 := toNat_lt_of_s16 (by omega) (by omega)
  cases hopc : Opcode.ofByte (s.mem.peek s.ip.toNat) with
  | none =>
    rw [step_of_undefined_opcode hr hip hopc, literalStep_of_undefined hip ((ofByte_eq_none_iff _).mp hopc)]
    rfl
  | some o =>
    have ho := ofByte_eq_some hopc
    by_cases hhalt : o = .halt
    · subst hhalt
      rw [step_of_haltByte hr hip ho, literalStep_of_haltByte hip ho]
    by_cases hend : 20 < s.ip.toNat + o.length
    · rw [step_of_missing_operand hr hip ho hend, literalStep_of_opcode hip hhalt ho, if_pos hend]
      rfl
    exact step_of_operands hr hip hhalt ho (by omega)

end Sys2Proof.Proofs
end

section
/-! A stored word is read back (O8). -/

namespace Sys2Proof.Proofs

open Sys2Proof.Machine Sys2Proof.Laws

/-- Where the two bytes of a word stand, the word is read (R43). -/
theorem readWord_of_bytes {m : Memory} {a : Nat} {v : Word} (ha : a + 1 < 20) (hlow : m.peek a = lowByte v)
    (hhigh : m.peek (a + 1) = highByte v) : m.readWord a = some v :=
  readWord_eq_some.mpr ⟨ha, by rw [hlow, hhigh, assemble_lowByte_highByte]⟩

/-- A word write that touches neither byte of a word leaves the word read there as it was (R44). -/
theorem readWord_writeWord_disjoint {m m' : Memory} {a b : Nat} {u : Word} (hdisj : b + 1 < a ∨ a + 1 < b)
    (hw : m.writeWord b u = some m') : m'.readWord a = m.readWord a := by
  have hlow : m'.peek a = m.peek a := writeWord_frame hw (by omega) (by omega)
  have hhigh : m'.peek (a + 1) = m.peek (a + 1) := writeWord_frame hw (by omega) (by omega)
  simp only [Memory.readWord, hlow, hhigh]

/-- Settles O8: the write leaves the word's two bytes where the read assembles them, and a later write beside them does not
change what is read. -/
theorem storedWordIsReadBack : Obligations.StoredWordIsReadBack := by
  intro m a v hm ha
  obtain ⟨m', hw⟩ := Option.isSome_iff_exists.mp ((writeWord_isSome_iff m a v).mpr (by omega))
  obtain ⟨hlt, -, hlow, hhigh, -⟩ := writeWord_eq_some hm hw
  have hread : m'.readWord a = some v := readWord_of_bytes hlt hlow hhigh
  exact ⟨m', hw, hread, fun b u m'' hdisj hw' => (readWord_writeWord_disjoint hdisj hw').trans hread⟩

end Sys2Proof.Proofs
end

section
/-! LOAD_WORD and STORE_WORD in bounds: the whole next state (O12, O13). -/

namespace Sys2Proof.Proofs

open Sys2Proof.Machine Sys2Proof.Laws

/-- Settles O12: in bounds the assembled word goes to the register and then `ip` advances, so with `ip` as the destination
the advance is added to the word (D2). -/
theorem loadWordCompletes : Obligations.LoadWordCompletes := by
  intro reg addr s ha w hw
  rw [effectiveAddress_toNat] at ha hw
  have hload : exec (.loadWord reg addr) s = .next (advance .loadWord (setReg reg w s)) := by
    rw [hw, ← assemble_eq_append]
    exact execLoadWord_of_lt (by omega) reg s
  rw [hload]
  cases reg with
  | ip | r1 | r2 => rfl

/-- Settles O13: in bounds the state answered holds what the word write answers for the register's value, so the bytes, the
frame and the canonical form are the word write's. -/
theorem storeWordCompletes : Obligations.StoreWordCompletes := by
  intro reg addr s hm a ha hle v hv
  obtain rfl : addr.toNat = a := by rwa [effectiveAddress_toNat] at ha
  obtain rfl : v = getReg reg s := by
    cases reg with
    | ip | r1 | r2 => exact hv
  obtain ⟨m, hw, he⟩ := execStoreWord_of_lt (addr := addr) (by omega) reg s
  obtain ⟨-, hwf, hlow, hhigh, hframe⟩ := writeWord_eq_some hm hw
  exact ⟨m, he, hwf, hlow.trans (lowByte_eq_setWidth _), hhigh.trans (highByte_eq_extractLsb' _), hframe⟩

end Sys2Proof.Proofs
end

section
/-! ADD, SUB and ADDI: the whole next state and the result in signed values (O15, O16, O17). -/

namespace Sys2Proof.Proofs

open Sys2Proof.Machine Sys2Proof.Laws

/-! ### The state an arithmetic instruction answers (R111 to R113) -/

theorem exec_add (regA regB : Reg) (s : State) :
    exec (.add regA regB) s = .next { s with ip := s.ip + 3#16, r1 := getReg regA s + getReg regB s } := rfl

theorem exec_sub (regA regB : Reg) (s : State) :
    exec (.sub regA regB) s = .next { s with ip := s.ip + 3#16, r1 := getReg regA s - getReg regB s } := rfl

/-- The advance is applied to what the addition left, so with `ip` named both are added to it (D2). -/
theorem exec_addi (reg : Reg) (imm : Word) (s : State) :
    exec (.addi reg imm) s = .next (advance .addi (setReg reg (getReg reg s + imm) s)) := rfl

/-! ### The ALU's modular results are the patterns of the signed results (R114) -/

theorem u16_s16_add (a b : Word) : u16 (s16 a + s16 b) = a + b := by
  apply BitVec.eq_of_toInt_eq
  rw [BitVec.toInt_ofInt, BitVec.toInt_add]

theorem u16_s16_sub (a b : Word) : u16 (s16 a - s16 b) = a - b := by
  apply BitVec.eq_of_toInt_eq
  rw [BitVec.toInt_ofInt, BitVec.toInt_sub]

/-- Settles O15: ADD and SUB answer states that differ from the old one in `ip` and `r1` only, whatever sources are named. -/
theorem addSubAlwaysWriteR1 : Obligations.AddSubAlwaysWriteR1 := by
  intro regA regB s
  refine ⟨_, _, exec_add regA regB s, exec_sub regA regB s, ?_⟩
  simp only [and_self]

/-- Settles O16: the word in `r1` is the pattern of the sum or the difference of the signed sources, and the run state is
kept. -/
theorem arithmeticWrapsInSignedValues : Obligations.ArithmeticWrapsInSignedValues := by
  intro regA regB imm s
  refine ⟨_, _, _, exec_add regA regB s, exec_sub regA regB s, exec_addi .r1 imm s, ?_, ?_, ?_, rfl, rfl, rfl⟩
  · rw [u16_s16_add]
  · rw [u16_s16_sub]
  · rw [u16_s16_add, advance_r1, setReg_r1_r1, getReg_r1]

/-- Settles O17: the register write, then the advance, for each register that can be named. -/
theorem addiCompletes : Obligations.AddiCompletes := by
  intro reg imm s
  rw [exec_addi]
  cases reg with
  | ip | r1 | r2 => rfl

end Sys2Proof.Proofs
end

section
/-! A JE that is not taken (O20). -/

namespace Sys2Proof.Proofs

open Sys2Proof.Machine Sys2Proof.Laws

/-- The advance past a JE is its two bytes, and it is the only change (R90). -/
theorem advance_je (s : State) : advance .je s = { s with ip := s.ip + 2#16 } := rfl

/-- Settles O20: with `r1 ≠ r2` JE does not resolve its operand, so it ends with the advance whatever that byte is (D7). -/
theorem jeNotTakenFallsThrough : Obligations.JeNotTakenFallsThrough := by
  intro addr s hne
  calc exec (.je addr) s
    _ = execJe addr s := rfl
    _ = .next (advance .je s) := execJe_of_ne hne addr
    _ = .next { s with ip := s.ip + 2#16 } := by rw [advance_je]

end Sys2Proof.Proofs
end

section
/-! Which Steps change the Output value (O38). -/

namespace Sys2Proof.Proofs

open Sys2Proof.Machine Sys2Proof.Laws

/-- A word write that touches neither byte of the Output slot leaves the value the host decodes there (R154). -/
theorem outputValue_writeWord_disjoint {m m' : Memory} {a : Nat} {v : Word} (hdisj : a + 1 < 0x0E ∨ 0x0F < a)
    (hw : m.writeWord a v = some m') : outputValue m' = outputValue m := by
  have hlow : m'.peek 0x0E = m.peek 0x0E := writeWord_frame hw (by omega) (by omega)
  have hhigh : m'.peek 0x0F = m.peek 0x0F := writeWord_frame hw (by omega) (by omega)
  simp only [outputValue, hlow, hhigh]

/-- Settles O38: the Output value is decoded from memory, so a Step that changes it completes a STORE_WORD, and one whose word
lies beside the slot would have kept the value. -/
theorem outputChangesOnlyByAStore : Obligations.OutputChangesOnlyByAStore := by
  intro s t h hne
  have hmem : t.mem ≠ s.mem := fun heq => hne (congrArg outputValue heq)
  obtain ⟨reg, addr, rest, hd, hw⟩ := stepWith_changes_mem h hmem
  have htouches : ¬ (addr.toNat + 1 < 0x0E ∨ 0x0F < addr.toNat) := fun hdisj =>
    hne (outputValue_writeWord_disjoint hdisj hw)
  exact ⟨reg, addr, rest, hd, by omega, by omega⟩

end Sys2Proof.Proofs
end

section
/-! HALT: the whole next state (O21). -/

namespace Sys2Proof.Proofs

open Sys2Proof.Machine Sys2Proof.Laws

/-- HALT ends the Run where it stands: there is no advance (R140). -/
theorem exec_halt (s : State) : exec .halt s = .next (halt s) := rfl

/-- Settles O21: the end of the Run at HALT sets the run state only, so `ip` stays at the HALT byte (D23). -/
theorem haltCompletes : Obligations.HaltCompletes := by
  intro s
  rw [exec_halt, halt]

end Sys2Proof.Proofs
end

section
/-! The host's side of the boundary: what it reads in a terminal state (O44), the inputs it places and the output it decodes
(O45). -/

namespace Sys2Proof.Proofs

open Sys2Proof.Machine Sys2Proof.Laws

/-! ### Images and memories hold the same bytes (R33, R152) -/

theorem peek_ofImage (image : Image) {a : Nat} (ha : a < 20) : (Memory.ofImage image).peek a = image[a] := by
  have hbyte := peek_ofBytes image.toList 0 (by simp) a (by simpa using ha)
  rwa [Nat.zero_add, Vector.getElem_toList] at hbyte

@[simp] theorem getElem_image (m : Memory) {a : Nat} (ha : a < 20) : m.image[a] = m.peek a := by
  simp [Memory.image]

/-- A word whose two bytes stand in the image is read from the image's memory (R43). -/
theorem readWord_ofImage {image : Image} {a : Nat} {v : Word} (ha : a + 1 < 20)
    (hlow : image[a]'(Nat.lt_of_succ_lt ha) = lowByte v) (hhigh : image[a + 1] = highByte v) : (Memory.ofImage image).readWord a = some v :=
  readWord_of_bytes ha ((peek_ofImage image (Nat.lt_of_succ_lt ha)).trans hlow) ((peek_ofImage image ha).trans hhigh)

/-! ### The snapshot (R152, R155) -/

theorem snapshot_of_running {s : State} (hr : s.runState = .running) : snapshot s = none := by
  have hterm : s.runState.isTerminal = false := (isTerminal_eq_false_iff _).mpr hr
  simp [snapshot, hterm]

theorem snapshot_of_terminal {s : State} (hr : s.runState ≠ .running) : snapshot s =
    some { runState := s.runState, fault := s.fault, ip := s.ip, r1 := s.r1, r2 := s.r2, mem := s.mem.image } :=
  if_pos (Bool.of_not_eq_false (mt (isTerminal_eq_false_iff _).mp hr))

/-- Settles O44: Running is the only state that is not terminal, and the snapshot copies the fields and the bytes of the state. -/
theorem snapshotExactlyWhenTerminal : Obligations.SnapshotExactlyWhenTerminal := fun s =>
  ⟨snapshot_of_running, fun hr =>
    ⟨_, snapshot_of_terminal hr, rfl, rfl, rfl, rfl, rfl, fun _ ha => getElem_image s.mem ha⟩⟩

/-! ### The inputs and the output (R153, R154) -/

/-- The second input is written beside the first, so the first still stands in the image. -/
theorem withInputs_input1 (image : Image) (input1 input2 : Word) :
    (withInputs image input1 input2)[0x10] = lowByte input1 ∧ (withInputs image input1 input2)[0x11] = highByte input1 := by
  constructor <;> simp [withInputs]

theorem withInputs_input2 (image : Image) (input1 input2 : Word) :
    (withInputs image input1 input2)[0x12] = lowByte input2 ∧ (withInputs image input1 input2)[0x13] = highByte input2 := by
  constructor <;> simp [withInputs]

theorem readWord_writeWord_self {m m' : Memory} {a : Nat} {v : Word} (hm : m.wf = true) (hw : m.writeWord a v = some m') :
    m'.readWord a = some v := by
  obtain ⟨hlt, -, hlow, hhigh, -⟩ := writeWord_eq_some hm hw
  exact readWord_of_bytes hlt hlow hhigh

/-- The host decodes the Output slot as the signed value of the word read there (R154). -/
theorem outputValue_of_readWord {m : Memory} {v : Word} (hread : m.readWord 0x0E = some v) : outputValue m = s16 v := by
  obtain ⟨-, hv⟩ := readWord_eq_some.mp hread
  rw [hv, outputValue]

/-- Settles O45: each input's two bytes stand in the image where a word read assembles them, and the host decodes the word that is
read back from the Output slot. -/
theorem hostSlotsHoldTheWords : Obligations.HostSlotsHoldTheWords := by
  refine ⟨fun image input1 input2 => ⟨?input1, ?input2⟩, fun m m' v hm hw => ?output⟩
  case input1 =>
    obtain ⟨hlow, hhigh⟩ := withInputs_input1 image input1 input2
    exact readWord_ofImage (by omega) hlow hhigh
  case input2 =>
    obtain ⟨hlow, hhigh⟩ := withInputs_input2 image input1 input2
    exact readWord_ofImage (by omega) hlow hhigh
  case output => exact outputValue_of_readWord (readWord_writeWord_self hm hw)

end Sys2Proof.Proofs
end

section
/-! Faults of memory accesses: what taking a fault writes (O25), and LOAD_WORD and STORE_WORD out of bounds (O14). -/

namespace Sys2Proof.Proofs

open Sys2Proof.Machine Sys2Proof.Laws

/-- Settles O25: taking a fault updates the run state and the record, and saves nothing (R176). -/
theorem faultEntryFillsTheRecordOnly : Obligations.FaultEntryFillsTheRecordOnly := by
  intro kind addr opcode op s
  rw [raise]

/-- OutOfBounds at an address operand reports the operand byte, zero-extended (R65, R172, D12). -/
theorem raise_outOfBounds_operand (addr opc : Byte) (op : FaultOp) (s : State) :
    raise (outOfBoundsRecord (effectiveAddress addr) opc op) s =
      { s with runState := .faulted, fault := ⟨.outOfBounds, addr.setWidth 16, opc, op⟩ } := by
  rw [raise, outOfBoundsRecord, effectiveAddress, zext16]

/-- Settles O14: from address 19 on the word's second byte is outside memory, so both accesses fault before any write, and the
state differs from the old one only by the fault's entry (D11). -/
theorem loadStoreOutOfBoundsFault : Obligations.LoadStoreOutOfBoundsFault := by
  intro reg addr s ha
  have hout : 20 ≤ addr.toNat + 1 := Nat.succ_le_succ ha
  rw [← raise_outOfBounds_operand, ← raise_outOfBounds_operand]
  exact ⟨execLoadWord_of_ge hout reg s, execStoreWord_of_ge hout reg s⟩

end Sys2Proof.Proofs
end

section
/-! The reset event leaves the image, zero registers, Running and a cleared record (O41). -/

namespace Sys2Proof.Proofs

open Sys2Proof.Machine Sys2Proof.Laws

/-- Every byte after a reset reads as the image's (R33, R200). -/
theorem peek_resetWith (image : Image) (s : State) {a : Nat} (ha : a < 20) : (resetWith image s).mem.peek a = image[a] :=
  peek_ofImage image ha

/-- Settles O41: memory and the invariant are those of the image (`peek_resetWith`, `inv_resetWith`); every other item is a
constant that the reset event writes (R200, D20). -/
theorem resetEstablishesTheImage : Obligations.ResetEstablishesTheImage := fun image s =>
  ⟨fun _ ha => peek_resetWith image s ha, rfl, rfl, rfl, rfl, rfl, rfl, inv_resetWith image s⟩

end Sys2Proof.Proofs
end

section
/-! Faults whose whole record is fixed: a negative `ip` (O30), a missing operand byte (O33), a register byte that names no slot
(O34) and a transfer outside memory (O19). -/

namespace Sys2Proof.Proofs

open Sys2Proof.Machine Sys2Proof.Laws

/-- Settles O30: the Step tests the sign of `ip` before any fetch, so no opcode byte is reported (D6). -/
theorem negativeIpFaults : Obligations.NegativeIpFaults := fun _ hr hip => step_of_neg hr hip

/-- Settles O33: the bytes after the opcode run out at the end of memory, wherever the instruction starts (D5). -/
theorem missingOperandFaultsAtTwenty : Obligations.MissingOperandFaultsAtTwenty := by
  intro s o hr hip ho hend
  have hbyte := ofByte_eq_some ho
  rw [step_of_missing_operand hr (by omega) hbyte hend, ← hbyte]
  rfl

/-- A register byte that names no slot takes IllegalInstruction, reporting the opcode byte and `ip` (R88). -/
theorem step_of_bad_register {s : State} (hr : s.runState = .running) {o : Opcode} (hne : o ≠ .halt)
    (ho : s.mem.peek s.ip.toNat = o.byte) (hfit : s.ip.toNat + o.length ≤ 20)
    (hbad : literalBadRegister o.byte.toNat (s.mem.peek (s.ip.toNat + 1)) (s.mem.peek (s.ip.toNat + 2)) = true) :
    step s = .next (raise (illegalRecord s.ip o.byte) s) := by
  have hip : s.ip.toNat < 20 := by have := one_lt_length hne; omega
  rw [step_of_operands hr hip hne ho hfit, literalStep_of_opcode hip hne ho, if_neg (by omega), if_pos hbad]
  rfl

/-- The opcodes whose byte 1 is a register, each with its byte and its length (R61, R62). -/
theorem opcode_of_registerRow {opc : Byte} {length : Nat}
    (h : (opc, length) ∈ [(0x01#8, 3), (0x02#8, 3), (0x03#8, 3), (0x04#8, 3), (0x07#8, 4)]) :
    ∃ o : Opcode, namesRegister o = true ∧ o.byte = opc ∧ o.length = length := by
  simp only [List.mem_cons, Prod.mk.injEq, List.not_mem_nil, or_false] at h
  obtain ⟨rfl, rfl⟩ | ⟨rfl, rfl⟩ | ⟨rfl, rfl⟩ | ⟨rfl, rfl⟩ | ⟨rfl, rfl⟩ := h
  · exact ⟨.loadWord, rfl, rfl, rfl⟩
  · exact ⟨.storeWord, rfl, rfl, rfl⟩
  · exact ⟨.add, rfl, rfl, rfl⟩
  · exact ⟨.sub, rfl, rfl, rfl⟩
  · exact ⟨.addi, rfl, rfl, rfl⟩

/-- Step (g) rejects a byte 1 above 2 of every opcode that names a register, and a byte 2 above 2 of ADD and SUB (R88). -/
theorem literalBadRegister_of_rejected {o : Opcode} (ho : namesRegister o = true) {b1 b2 : Byte}
    (h : 3 ≤ b1.toNat ∨ ((o.byte = 0x03#8 ∨ o.byte = 0x04#8) ∧ 3 ≤ b2.toNat)) :
    literalBadRegister o.byte.toNat b1 b2 = true := by
  cases o with
  | halt | jmp | je => cases ho
  | loadWord | storeWord =>
    have h1 : 3 ≤ b1.toNat := h.resolve_right fun ⟨hbyte, _⟩ => absurd hbyte (by decide)
    rw [literalBadRegister_ra rfl]
    exact decide_eq_true h1
  | addi =>
    have h1 : 3 ≤ b1.toNat := h.resolve_right fun ⟨hbyte, _⟩ => absurd hbyte (by decide)
    rw [literalBadRegister_ri rfl]
    exact decide_eq_true h1
  | add | sub =>
    rw [literalBadRegister_rr rfl]
    exact decide_eq_true (h.imp_right And.right)

/-- Settles O34: each row is an opcode that names a register, and step (g) rejects the byte before the instruction executes
(D4, D10). -/
theorem badRegisterByteIsIllegal : Obligations.BadRegisterByteIsIllegal := by
  intro s opc length hr hopc hrow hfit hbad
  obtain ⟨o, hreg, rfl, rfl⟩ := opcode_of_registerRow hrow
  have hne : o ≠ .halt := by
    rintro rfl
    cases hreg
  exact step_of_bad_register hr hne hopc hfit (literalBadRegister_of_rejected hreg hbad)

/-- Settles O19: from address 20 on the target check fails and the fault's entry is the only change (D7, D12). -/
theorem transferOutsideMemoryFaults : Obligations.TransferOutsideMemoryFaults := by
  intro addr s ha
  have hfault (o : Opcode) : transfer o addr s =
      { s with runState := .faulted, fault := ⟨.outOfBounds, addr.setWidth 16, o.byte, .jumpTarget⟩ } := by
    rw [transfer_of_ge ha, raise_outOfBounds_operand]
  exact ⟨congrArg _ (hfault .jmp), fun heq => (execJe_of_eq heq addr).trans (congrArg _ (hfault .je))⟩

end Sys2Proof.Proofs
end

section
/-! A Step that leaves Running changes no data (O35). -/

namespace Sys2Proof.Proofs

open Sys2Proof.Machine Sys2Proof.Laws

/-- A control transfer that changes the run state took the fault, so `ip` stays (R128). -/
theorem transfer_ip_of_ended {o : Opcode} {addr : Byte} {s : State} (hne : (transfer o addr s).runState ≠ s.runState) :
    (transfer o addr s).ip = s.ip := by
  obtain ⟨-, h⟩ | ⟨-, h⟩ := transfer_cases o addr s
  · rw [h] at hne
    exact absurd rfl hne
  · rw [h, raise_ip]

/-- An instruction that changes the run state took a fault or is HALT, and neither touches registers or memory (R140, R177). -/
theorem exec_keeps_data_of_ended {i : Instr} {s t : State} (h : exec i s = .next t) (hne : t.runState ≠ s.runState) :
    t.ip = s.ip ∧ t.r1 = s.r1 ∧ t.r2 = s.r2 ∧ t.mem = s.mem := by
  cases exec_path h with
  | loaded | stored | added | subtracted | fellThrough | addedImmediate => simp at hne
  | loadFault | storeFault | halted => exact ⟨rfl, rfl, rfl, rfl⟩
  | jumped addr | jumpedEqual addr =>
    exact ⟨transfer_ip_of_ended hne, transfer_r1 _ addr s, transfer_r2 _ addr s, transfer_mem _ addr s⟩

/-- Settles O35: the ends of a Step that execute nothing write the run state and the record only, and an instruction that ends
the Run keeps the data (D11); without a cap nothing is counted. -/
theorem leavingRunningChangesNoRegisterOrMemory : Obligations.LeavingRunningChangesNoRegisterOrMemory := by
  intro s t hr h hend
  cases stepWith_cases hr h with
  | exhausted _ ht | negative _ ht | capped _ _ ht | refusedBytes _ _ _ _ ht =>
    subst ht
    exact ⟨rfl, rfl, rfl, rfl, rfl⟩
  | executed _ _ i _ _ he =>
    obtain ⟨hip, hr1, hr2, hmem⟩ := exec_keeps_data_of_ended he fun heq => hend (heq.trans hr)
    exact ⟨hip, hr1, hr2, hmem, exec_steps he⟩

end Sys2Proof.Proofs
end

section
/-! A store is seen by the next fetch (O37). -/

namespace Sys2Proof.Proofs

open Sys2Proof.Machine Sys2Proof.Laws

/-- The advance past a STORE_WORD in memory is to the byte after it (R90). -/
theorem advance_storeWord_ip_toNat {s : State} (hip : s.ip.toNat < 20) :
    (advance .storeWord s).ip.toNat = s.ip.toNat + 3 := by
  have hlen : (BitVec.ofNat 16 (Opcode.length .storeWord)).toNat = 3 := rfl
  rw [advance_ip, BitVec.toNat_add, hlen]
  omega

/-- Settles O37: the store completes, and the byte that the next Step fetches is the low byte it wrote (D15). -/
theorem storeIsSeenByTheNextFetch : Obligations.StoreIsSeenByTheNextFetch := by
  intro s t reg addr rest hr hm hd haddr hle hlow h
  have hip : s.ip.toNat < 20 := by omega
  obtain ⟨m, hw, he⟩ := execStoreWord_of_lt (addr := addr) (by omega) reg s
  have hstep : step s = .next (advance .storeWord { s with mem := m }) := by
    rw [step_eq_runAt hr hip, runAt_of_ok hd]
    exact he
  obtain rfl : advance .storeWord { s with mem := m } = t := Host.Outcome.next.inj (hstep.symm.trans h)
  have hnext : (advance .storeWord { s with mem := m }).ip.toNat = addr.toNat :=
    (advance_storeWord_ip_toNat (s := { s with mem := m }) hip).trans haddr.symm
  have hbyte : m.peek addr.toNat = Opcode.byte .halt := by
    obtain ⟨-, -, hwritten, -, -⟩ := writeWord_eq_some hm hw
    rw [hwritten, lowByte_eq_setWidth, hlow]
    rfl
  exact ⟨hr, step_of_haltByte hr (by omega) (by rw [hnext]; exact hbyte)⟩

end Sys2Proof.Proofs
end

section
/-! What the host puts into memory: an instruction it places runs next (O53), and the image of zeros is the empty memory (O43). -/

namespace Sys2Proof.Proofs

open Sys2Proof.Machine Sys2Proof.Laws

/-! ### The bytes placed are the bytes read -/

/-- Placing bytes leaves those below them alone. -/
theorem peek_placeBytes_of_lt {bs : List Byte} :
    ∀ {a b : Nat} (m : Memory), b < a → (m.placeBytes a bs).peek b = m.peek b := by
  induction bs with
  | nil => intros; rfl
  | cons c bs ih =>
    intro a b m hb
    rw [Memory.placeBytes, ih _ (by omega)]
    split_ifs with ha
    · exact peek_poke_ne (by omega) m c
    · rfl

/-- Each byte placed in memory reads as placed. -/
theorem peek_placeBytes {bs : List Byte} : ∀ {a : Nat} {m : Memory}, m.wf = true → a + bs.length ≤ 20 →
    ∀ k (h : k < bs.length), (m.placeBytes a bs).peek (a + k) = bs[k] := by
  induction bs with
  | nil => exact fun _ _ k h => absurd h (Nat.not_lt_zero k)
  | cons b bs ih =>
    intro a m hm hfit k hk
    rw [List.length_cons] at hfit hk
    have ha : a < 20 := by omega
    rw [Memory.placeBytes, if_pos ha]
    cases k with
    | zero => exact (peek_placeBytes_of_lt _ (Nat.lt_succ_self a)).trans (peek_poke_self a hm b)
    | succ k =>
      have hshift : a + (k + 1) = a + 1 + k := by omega
      rw [hshift]
      exact ih (wf_poke ha hm b) (by omega) k (by omega)

/-- The loop decodes four bytes placed at `a` as they stand (R60). -/
theorem fetchDecode_placeBytes {m : Memory} (hm : m.wf = true) {a : Nat} {bs : List Byte} (hlen : bs.length = 4)
    (hfit : a + 4 ≤ 20) : fetchDecode (m.placeBytes a bs) a = decode bs := by
  have hwindow := window_eq_append (n := 4) (by omega) (by omega) (peek_placeBytes hm (hlen ▸ hfit))
  rw [hlen] at hwindow
  exact congrArg decode (hwindow.trans (List.append_nil bs))

/-! ### The placed instruction (log entry 16) -/

/-- The longest instruction fits where the host places one. -/
theorem placeAddress_fits (s : State) : placeAddress s + 4 ≤ 20 := by
  rw [placeAddress]
  split_ifs with h
  · exact h
  · decide

theorem placeInstruction_ip_toNat (bytes : List Byte) (s : State) :
    (placeInstruction bytes s).ip.toNat = placeAddress s :=
  Nat.mod_eq_of_lt (by have := placeAddress_fits s; omega)

theorem decode_tableBytes {nbits w : Nat} {i : Instr} (h : decodeTableWord nbits w = some i) :
    ∃ rest, decode (tableBytes nbits w) = .ok (i, rest) := by
  rw [decodeTableWord] at h
  split at h
  next j rest hd =>
    cases h
    exact ⟨rest, hd⟩
  next => cases h

/-- Settles O53: the next Step fetches at the address where the word's four bytes were placed. -/
theorem placedInstructionRunsNext : Obligations.PlacedInstructionRunsNext := by
  intro s nbits w i hm hw
  obtain ⟨rest, hd⟩ := decode_tableBytes hw
  have hfit := placeAddress_fits s
  have hip : (s.withFetchWord nbits w).ip.toNat = placeAddress s := placeInstruction_ip_toNat _ s
  have hfetch : fetchDecode (s.withFetchWord nbits w).mem (placeAddress s) = .ok (i, rest) :=
    (fetchDecode_placeBytes hm rfl hfit).trans hd
  rw [step_eq_runAt rfl (by omega), hip, runAt_of_ok hfetch]

/-! ### The image of zeros (log entry 2) -/

/-- Bytes that read as unlisted ones do are not listed. -/
theorem ofBytes_replicate_unlisted (n : Nat) : ∀ a, Memory.ofBytes a (List.replicate n Memory.unlisted) = [] := by
  induction n with
  | zero => intro a; rfl
  | succ n ih =>
    intro a
    rw [List.replicate_succ, Memory.ofBytes, if_pos rfl, ih]

theorem ofImage_zeroImage : Memory.ofImage zeroImage = [] := by
  rw [Memory.ofImage, zeroImage, Vector.toList_replicate]
  exact ofBytes_replicate_unlisted _ 0

/-- Settles O43: the two differ at most in how memory is written, and the image of zeros lists no cell. -/
theorem resetStateHasTheZeroImage : Obligations.ResetStateHasTheZeroImage := by
  intro s
  rw [resetWith, ofImage_zeroImage, State.reset]

end Sys2Proof.Proofs
end

section
/-! The nine listings of R70 (O5). -/

namespace Sys2Proof.Proofs

/-- An encoding decodes to its instruction with nothing left over (R60). -/
theorem decode_encode (i : Instr) : decode (encode i) = .ok (i, []) := by
  rw [← List.append_nil (encode i), decodeEncodeRoundTrip]

/-- Settles O5: each listing is the encoding of the instruction beside it. -/
theorem listedWordsDecode : Obligations.ListedWordsDecode :=
  ⟨decode_encode (.loadWord .r1 0x10#8), decode_encode (.storeWord .r1 0x0E#8), decode_encode (.add .r1 .r2),
    decode_encode (.sub .r1 .r2), decode_encode (.jmp 0x06#8), decode_encode (.je 0x0E#8),
    decode_encode (.addi .r1 1#16), decode_encode (.addi .r2 0xFFFF#16), decode_encode .halt⟩

end Sys2Proof.Proofs
end
